-- ==== Sys2Proof/Word.lean ====
section
/-! DEFINITION. The word types of LDOI MARK II (00_scope.md R4, R6). -/

namespace Sys2Proof

/-- The value of a general register, a literal or a data cell: 8 bits (R4, 10_state.md R11, R22).
Its unsigned value `u(v)` is `BitVec.toNat`, its two's-complement value `s(v)` is `BitVec.toInt` (R6). -/
abbrev Byte := BitVec 8

/-- An address: of the instruction space or of the data space, 8 bits each (R4, 10_state.md R13, R22). -/
abbrev Addr := BitVec 8

/-- One instruction word: 16 bits at one instruction address (30_encoding.md R50). -/
abbrev InstrWord := BitVec 16

/-- The number of a general register, 0 to 7 (10_state.md R10). -/
abbrev Reg := Fin 8

end Sys2Proof
end

