-- ==== Sys2Proof/Config.lean ====
section
/-! DEFINITION. The open parameters of the spec (00_scope.md R5, 92_eei_decisions.md) and the free values.
`PROGRAM`, the tenth parameter, is a field of the machine's state (10_state.md R29). -/

namespace Sys2Proof

/-- `SHIFT_FILL`: the bit that RR and RL shift into the vacated position (R5, D14). -/
inductive ShiftFill where
  | zero
  | carry
  | rotate
deriving DecidableEq, Repr, Inhabited

/-- What stands at a data address (20_memory.md R35, D4). -/
inductive CellKind where
  | ram
  | device
  | absent
deriving DecidableEq, Repr, Inhabited

/-- The open parameters, fixed for a run. A statement about every state holds for every value of them. -/
structure Config where
  /-- `SUB_CF_IS_BORROW`: the polarity of CF after a subtraction (43_alu_two.md R132, D13). -/
  subCfIsBorrow : Bool
  /-- `SHIFT_FILL` (42_alu_single.md R112, R113, D14). -/
  shiftFill : ShiftFill
  /-- `CMP_SIGNED`: whether CMPL and CMPR compare two's-complement values (43_alu_two.md R133, D15). -/
  cmpSigned : Bool
  /-- `STACK_DEPTH`: how many entries the stack holds before a push faults (10_state.md R25, D6). -/
  stackDepth : Nat
  /-- `DATA_MAP`, as the list of the data addresses that are not plain memory: an address that is not
  listed is `Ram` (20_memory.md R35, D4). -/
  dataMap : List (Nat × CellKind)
  /-- `IRQ_PRESENT`: whether the environment may deliver interrupts (60_exceptions.md R163, D17). -/
  irqPresent : Bool
  /-- `IRQ_VECTOR`: where an interrupt sends control (60_exceptions.md R167, D17). -/
  irqVector : Addr
  /-- `IRQ_SAVES_FLAGS`: whether interrupt entry saves the flags and RETI restores them (R167, R168, D17). -/
  irqSavesFlags : Bool
  /-- `RESET_PC`: the address of the first instruction after reset (70_reset_and_hazards.md R180, D19). -/
  resetPc : Addr
deriving DecidableEq, Repr

/-- FREE VALUE (20_memory.md R30, 93 U8). What the environment supplies to a read of a `Device` cell:
the `n`-th device read of the run, made at address `a`. Nothing constrains it. -/
opaque Config.deviceInput (n : Nat) (a : Addr) : Byte

/-- FREE VALUE (60_exceptions.md R164, 93 U18). Whether the environment raises the interrupt request at the `n`-th
boundary, where the state does not fix it. Nothing constrains it. -/
opaque Config.irqRequest (n : Nat) : Bool

/-- FREE VALUE. `SUB_CF_IS_BORROW` of the machine as built; the spec gives no default (R5, D13). -/
opaque Config.builtSubCfIsBorrow : Bool

/-- FREE VALUE. `SHIFT_FILL` of the machine as built; the spec gives no default (R5, D14). -/
opaque Config.builtShiftFill : ShiftFill

/-- FREE VALUE. `CMP_SIGNED` of the machine as built; the spec gives no default (R5, D15). -/
opaque Config.builtCmpSigned : Bool

/-- FREE VALUE. `IRQ_VECTOR` of the machine as built; the spec gives no default (R5, D17). -/
opaque Config.builtIrqVector : Addr

/-- FREE VALUE. `IRQ_SAVES_FLAGS` of the machine as built; the spec gives no default (R5, D17). -/
opaque Config.builtIrqSavesFlags : Bool

end Sys2Proof
end

