-- ==== Sys2Proof/Machine/Flags.lean ====
section
/-! DEFINITION. The results and flag values of the ALU (10_state.md R16; 42_alu_single.md R110 to R114;
43_alu_two.md R131 to R134), as functions of the operands and the parameters. -/

namespace Sys2Proof.Machine

/-- ZF: the 8-bit result is 0x00 (10_state.md R16, D12). -/
def zeroFlag (r : Byte) : Bool := decide (r = 0x00#8)

/-! ## Addition (43_alu_two.md R131) -/

/-- `sum = u(a) + u(b)`, as a mathematical integer. -/
def addSum (a b : Byte) : Nat := a.toNat + b.toNat

/-- `r = sum mod 256`. -/
def addResult (a b : Byte) : Byte := BitVec.ofNat 8 (addSum a b)

/-- CF: the carry out of bit 7. -/
def addCarry (a b : Byte) : Bool := decide (256 ≤ addSum a b)

/-! ## Subtraction (43_alu_two.md R132) -/

/-- `d = u(a) - u(b)`, as a mathematical integer. -/
def subDifference (a b : Byte) : Int := (a.toNat : Int) - (b.toNat : Int)

/-- `r = d mod 256`. -/
def subResult (a b : Byte) : Byte := BitVec.ofInt 8 (subDifference a b)

/-- The borrow. -/
def subBorrow (a b : Byte) : Bool := decide (a.toNat < b.toNat)

/-- CF: the borrow or its complement, by `SUB_CF_IS_BORROW`. -/
def subCarry (cfIsBorrow : Bool) (a b : Byte) : Bool :=
  if cfIsBorrow then subBorrow a b else !subBorrow a b

/-! ## Comparison (43_alu_two.md R133) -/

/-- The number a compared pattern stands for: `s(v)` if `CMP_SIGNED`, else `u(v)`. -/
def cmpNumber (signed : Bool) (v : Byte) : Int := if signed then v.toInt else (v.toNat : Int)

/-- EF: `A = B`. -/
def cmpEqual (signed : Bool) (a b : Byte) : Bool := decide (cmpNumber signed a = cmpNumber signed b)

/-- GF: `A > B`. -/
def cmpGreater (signed : Bool) (a b : Byte) : Bool := decide (cmpNumber signed b < cmpNumber signed a)

/-- SF: `A < B`. -/
def cmpSmaller (signed : Bool) (a b : Byte) : Bool := decide (cmpNumber signed a < cmpNumber signed b)

/-! ## One-bit shifts (42_alu_single.md R112, R113) -/

/-- The bit that enters: 0, the CF before the instruction, or the bit that leaves, by `SHIFT_FILL`. -/
def shiftIn (fill : ShiftFill) (carry leaving : Bool) : Bool :=
  match fill with
  | .zero => false
  | .carry => carry
  | .rotate => leaving

/-- RR: `inb ++ v[7:1]` (R112). -/
def rightResult (inb : Bool) (v : Byte) : Byte := BitVec.ofBool inb ++ v.extractLsb' 1 7

/-- The bit that leaves at bit 0 (R112). -/
def rightLeaving (v : Byte) : Bool := v.getLsbD 0

/-- RL: `v[6:0] ++ inb` (R113). -/
def leftResult (inb : Bool) (v : Byte) : Byte := v.extractLsb' 0 7 ++ BitVec.ofBool inb

/-- The bit that leaves at bit 7 (R113). -/
def leftLeaving (v : Byte) : Bool := v.getLsbD 7

/-- SWAP: `v[3:0] ++ v[7:4]` (R114). -/
def swapResult (v : Byte) : Byte := v.extractLsb' 0 4 ++ v.extractLsb' 4 4

end Sys2Proof.Machine
end

