-- ==== Sys2Proof/Syntax.lean ====
section
/-! DEFINITION. The instructions (30_encoding.md R59: one constructor per row of the opcode table) and the
assembly statements the source shows (R63 to R65). Operands stand in the order of the usage lines (R64). -/

namespace Sys2Proof

/-- The 32 encoded instructions (00_scope.md R3, 30_encoding.md R59). -/
inductive Instr where
  | nop
  | reti
  | retc
  | call (addr : Addr)
  | jmp (addr : Addr)
  | jz (addr : Addr)
  | jc (addr : Addr)
  | je (addr : Addr)
  | jg (addr : Addr)
  | js (addr : Addr)
  | movl (rd : Reg) (l : Byte)
  | movr (rd rs : Reg)
  | ldr (rd : Reg) (addr : Addr)
  | str (addr : Addr) (rs : Reg)
  | push (rs : Reg)
  | pop (rd : Reg)
  | not (rds : Reg)
  | rr (rds : Reg)
  | rl (rds : Reg)
  | swap (rds : Reg)
  | andl (rd : Reg) (l : Byte)
  | andr (rd rs : Reg)
  | orl (rd : Reg) (l : Byte)
  | orr (rd rs : Reg)
  | xorl (rd : Reg) (l : Byte)
  | xorr (rd rs : Reg)
  | addl (rd : Reg) (l : Byte)
  | addr (rd rs : Reg)
  | subl (rd : Reg) (l : Byte)
  | subr (rd rs : Reg)
  | cmpl (rd : Reg) (l : Byte)
  | cmpr (rd rs : Reg)
deriving DecidableEq, Repr

/-- The 35 mnemonics of the "Instruction" column: 32 encoded ones and the virtual INC, DEC, CLR (R64, R65). -/
inductive Mnemonic where
  | nop | reti | retc | call | jmp | jz | jc | je | jg | js
  | movl | movr | ldr | str | push | pop
  | not | rr | rl | swap | inc | dec | clr
  | andl | andr | orl | orr | xorl | xorr | addl | addr | subl | subr | cmpl | cmpr
deriving DecidableEq, Repr

/-- An operand as written: a register `Rn`, a literal, a bare jump address, a data address in brackets (R63).
The numbers are those the programmer wrote, in range or not. -/
inductive Operand where
  | reg (n : Nat)
  | lit (n : Nat)
  | addr (n : Nat)
  | cell (n : Nat)
deriving DecidableEq, Repr

/-- One assembly statement: a mnemonic followed by its operands (R63). -/
structure Statement where
  mnemonic : Mnemonic
  operands : List Operand
deriving DecidableEq, Repr

end Sys2Proof
end

