-- ==== Sys2Proof/WellFormed.lean ====
section
/-! DEFINITION. What is checked before the machine sees it: assembly statements (30_encoding.md R64 to R66)
and configurations (00_scope.md R5). An `Instr` carries its operands in types of exactly the encoded widths
(R57, R58), so every `Instr` is well formed and an ill-formed one cannot be written. -/

namespace Sys2Proof

/-- An operand is in the range of its field: registers 0 to 7, literals and addresses 0 to 255 (R66). -/
def Operand.inRange : Operand → Bool
  | .reg n => decide (n < 8)
  | .lit n => decide (n < 256)
  | .addr n => decide (n < 256)
  | .cell n => decide (n < 256)

/-- The kinds of operand a usage line shows (R64). -/
inductive OperandKind where
  | reg
  | lit
  | addr
  | cell
deriving DecidableEq, Repr

/-- The kind of an operand as written. -/
def Operand.kind : Operand → OperandKind
  | .reg _ => .reg
  | .lit _ => .lit
  | .addr _ => .addr
  | .cell _ => .cell

/-- The usage line of each mnemonic (R64). -/
def Mnemonic.usage : Mnemonic → List OperandKind
  | .nop | .reti | .retc => []
  | .call | .jmp | .jz | .jc | .je | .jg | .js => [.addr]
  | .movl | .andl | .orl | .xorl | .addl | .subl | .cmpl => [.reg, .lit]
  | .movr | .andr | .orr | .xorr | .addr | .subr | .cmpr => [.reg, .reg]
  | .ldr => [.reg, .cell]
  | .str => [.cell, .reg]
  | .push | .pop | .not | .rr | .rl | .swap | .inc | .dec | .clr => [.reg]

/-- A statement is well formed if its operands are those of its usage line (R64) and in range (R66). -/
def Statement.wellFormed (st : Statement) : Bool :=
  (st.operands.map Operand.kind == st.mnemonic.usage) && st.operands.all Operand.inRange

/-- The keys of a list indexed by address are strictly rising and name addresses 0 to 255. -/
def rising {α : Type} : List (Nat × α) → Bool
  | [] => true
  | (a, _) :: rest => decide (a < 256) && rest.all (fun p => decide (a < p.1)) && rising rest

/-- A configuration is well formed: `STACK_DEPTH` is at least 1 (R5), and the data map lists addresses of the
data space, each once and rising, and only those that are not plain memory (20_memory.md R35). -/
def Config.wellFormed (c : Config) : Bool :=
  decide (1 ≤ c.stackDepth) && rising c.dataMap && c.dataMap.all (fun p => p.2 != CellKind.ram)

end Sys2Proof
end

