-- ==== Sys2Proof/Decode.lean ====
section
/-! DEFINITION. Decoding (30_encoding.md R59 to R62, R67), the encoder (R66) and the assembler's side that the
spec gives (R64 to R66). -/

namespace Sys2Proof

/-- Bits 15-11 of an instruction word: the opcode (R50). -/
def opcodeField (w : InstrWord) : BitVec 5 := w.extractLsb' 11 5

/-- Bits 10-8: the register field of formats RI, RR, R and RD (R53 to R56). -/
def regField (w : InstrWord) : Reg := (w.extractLsb' 8 3).toFin

/-- Bits 7-5: the second register field of formats RR and RD (R54, R56). -/
def srcField (w : InstrWord) : Reg := (w.extractLsb' 5 3).toFin

/-- Bits 7-0: the literal or the address (R57, R58). -/
def immField (w : InstrWord) : Byte := w.extractLsb' 0 8

/-- Why a word is not an instruction. -/
inductive DecodeError where
  /-- A word of format RD whose two register copies differ: opcode, bits 10-8 and bits 7-5 (R61, R67). -/
  | reserved (opcode : BitVec 5) (rd rs : Reg)
deriving DecidableEq, Repr

/-- The check of format RD: the two copies of the register number agree, or the word is reserved (R61, R67). -/
def decodeTwice (w : InstrWord) (i : Reg → Instr) : Except DecodeError Instr :=
  if srcField w = regField w then .ok (i (regField w))
  else .error (.reserved (opcodeField w) (regField w) (srcField w))

/-- Decoding, total on all 65536 words: the opcode alone selects the instruction (R50, R59, R67). It is matched
as its bits 4-3 and 2-0, in the order of the opcode map, so that Lean itself sees that all 32 opcodes stand
here. Bits of the word that are not read are the don't-care bits (R60). -/
def decode (w : InstrWord) : Except DecodeError Instr :=
  match (opcodeField w).extractLsb' 3 2, (opcodeField w).extractLsb' 0 3 with
  | 0b00#2, 0b000#3 => .ok .nop
  | 0b00#2, 0b001#3 => .ok .reti
  | 0b00#2, 0b010#3 => .ok .retc
  | 0b00#2, 0b011#3 => .ok (.call (immField w))
  | 0b00#2, 0b100#3 => .ok (.jmp (immField w))
  | 0b00#2, 0b101#3 => .ok (.jz (immField w))
  | 0b00#2, 0b110#3 => .ok (.jc (immField w))
  | 0b00#2, 0b111#3 => .ok (.je (immField w))
  | 0b01#2, 0b000#3 => .ok (.jg (immField w))
  | 0b01#2, 0b001#3 => .ok (.js (immField w))
  | 0b01#2, 0b010#3 => .ok (.movl (regField w) (immField w))
  | 0b01#2, 0b011#3 => .ok (.movr (regField w) (srcField w))
  | 0b01#2, 0b100#3 => .ok (.ldr (regField w) (immField w))
  | 0b01#2, 0b101#3 => .ok (.str (immField w) (regField w))
  | 0b01#2, 0b110#3 => .ok (.push (regField w))
  | 0b01#2, 0b111#3 => .ok (.pop (regField w))
  | 0b10#2, 0b000#3 => decodeTwice w .not
  | 0b10#2, 0b001#3 => decodeTwice w .rr
  | 0b10#2, 0b010#3 => decodeTwice w .rl
  | 0b10#2, 0b011#3 => decodeTwice w .swap
  | 0b10#2, 0b100#3 => .ok (.andl (regField w) (immField w))
  | 0b10#2, 0b101#3 => .ok (.andr (regField w) (srcField w))
  | 0b10#2, 0b110#3 => .ok (.orl (regField w) (immField w))
  | 0b10#2, 0b111#3 => .ok (.orr (regField w) (srcField w))
  | 0b11#2, 0b000#3 => .ok (.xorl (regField w) (immField w))
  | 0b11#2, 0b001#3 => .ok (.xorr (regField w) (srcField w))
  | 0b11#2, 0b010#3 => .ok (.addl (regField w) (immField w))
  | 0b11#2, 0b011#3 => .ok (.addr (regField w) (srcField w))
  | 0b11#2, 0b100#3 => .ok (.subl (regField w) (immField w))
  | 0b11#2, 0b101#3 => .ok (.subr (regField w) (srcField w))
  | 0b11#2, 0b110#3 => .ok (.cmpl (regField w) (immField w))
  | 0b11#2, 0b111#3 => .ok (.cmpr (regField w) (srcField w))

/-- A field value as a 16-bit word, before it is shifted to its place (R66). -/
def widen {n : Nat} (v : BitVec n) : InstrWord := v.setWidth 16

/-- The register number as a 3-bit field (R58). -/
def regBits (r : Reg) : BitVec 3 := BitVec.ofFin r

/-- Format N: `op << 11` (R51, R66). -/
def wordN (op : BitVec 5) : InstrWord := widen op <<< 11

/-- Format J: `(op << 11) | addr` (R52, R66). -/
def wordJ (op : BitVec 5) (a : Addr) : InstrWord := widen op <<< 11 ||| widen a

/-- Format RI: `(op << 11) | (reg << 8) | imm`, with imm a literal or an address (R53, R66). -/
def wordRI (op : BitVec 5) (r : Reg) (imm : Byte) : InstrWord :=
  widen op <<< 11 ||| widen (regBits r) <<< 8 ||| widen imm

/-- Format RR: `(op << 11) | (Rd << 8) | (Rs << 5)` (R54, R66). -/
def wordRR (op : BitVec 5) (rd rs : Reg) : InstrWord :=
  widen op <<< 11 ||| widen (regBits rd) <<< 8 ||| widen (regBits rs) <<< 5

/-- Format R: `(op << 11) | (reg << 8)` (R55, R66). -/
def wordR (op : BitVec 5) (r : Reg) : InstrWord := widen op <<< 11 ||| widen (regBits r) <<< 8

/-- Format RD: `(op << 11) | (Rds << 8) | (Rds << 5)` (R56, R66). -/
def wordRD (op : BitVec 5) (r : Reg) : InstrWord :=
  widen op <<< 11 ||| widen (regBits r) <<< 8 ||| widen (regBits r) <<< 5

/-- The canonical word of an instruction: every don't-care bit 0 (R60, R66). -/
def encode : Instr → InstrWord
  | .nop => wordN 0b00000#5
  | .reti => wordN 0b00001#5
  | .retc => wordN 0b00010#5
  | .call a => wordJ 0b00011#5 a
  | .jmp a => wordJ 0b00100#5 a
  | .jz a => wordJ 0b00101#5 a
  | .jc a => wordJ 0b00110#5 a
  | .je a => wordJ 0b00111#5 a
  | .jg a => wordJ 0b01000#5 a
  | .js a => wordJ 0b01001#5 a
  | .movl rd l => wordRI 0b01010#5 rd l
  | .movr rd rs => wordRR 0b01011#5 rd rs
  | .ldr rd a => wordRI 0b01100#5 rd a
  | .str a rs => wordRI 0b01101#5 rs a
  | .push rs => wordR 0b01110#5 rs
  | .pop rd => wordR 0b01111#5 rd
  | .not r => wordRD 0b10000#5 r
  | .rr r => wordRD 0b10001#5 r
  | .rl r => wordRD 0b10010#5 r
  | .swap r => wordRD 0b10011#5 r
  | .andl rd l => wordRI 0b10100#5 rd l
  | .andr rd rs => wordRR 0b10101#5 rd rs
  | .orl rd l => wordRI 0b10110#5 rd l
  | .orr rd rs => wordRR 0b10111#5 rd rs
  | .xorl rd l => wordRI 0b11000#5 rd l
  | .xorr rd rs => wordRR 0b11001#5 rd rs
  | .addl rd l => wordRI 0b11010#5 rd l
  | .addr rd rs => wordRR 0b11011#5 rd rs
  | .subl rd l => wordRI 0b11100#5 rd l
  | .subr rd rs => wordRR 0b11101#5 rd rs
  | .cmpl rd l => wordRI 0b11110#5 rd l
  | .cmpr rd rs => wordRR 0b11111#5 rd rs

/-- The word that `nbits` table bits stand for; the bits above them are 0. An instruction is one 16-bit unit at
one instruction address, so no byte order enters (20_memory.md R32). -/
def tableWord (nbits w : Nat) : InstrWord := BitVec.ofNat 16 (w % 2 ^ nbits)

/-- The instruction the decoder reads from a word given as a number. -/
def decodeTableWord (nbits w : Nat) : Option Instr := (decode (tableWord nbits w)).toOption

/-- Why an assembly statement is rejected. -/
inductive AsmError where
  /-- The operands are not those of the mnemonic's usage line (R64). -/
  | wrongOperands
  /-- An operand is outside the range of its field (R66). -/
  | outOfRange
deriving DecidableEq, Repr

/-- A register operand: 0 to 7, or rejected (R66). -/
def asReg (n : Nat) : Except AsmError Reg :=
  if h : n < 8 then .ok ⟨n, h⟩ else .error .outOfRange

/-- A literal or address operand: 0 to 255, or rejected (R66). -/
def asByte (n : Nat) : Except AsmError Byte :=
  if n < 256 then .ok (BitVec.ofNat 8 n) else .error .outOfRange

/-- Usage `MNEMONIC`. -/
def asmN (ops : List Operand) (i : Instr) : Except AsmError Instr :=
  match ops with
  | [] => .ok i
  | _ => .error .wrongOperands

/-- Usage `MNEMONIC addr`. -/
def asmJ (ops : List Operand) (i : Addr → Instr) : Except AsmError Instr :=
  match ops with
  | [.addr a] => (asByte a).map i
  | _ => .error .wrongOperands

/-- Usage `MNEMONIC Rd, L`. -/
def asmRL (ops : List Operand) (i : Reg → Byte → Instr) : Except AsmError Instr :=
  match ops with
  | [.reg d, .lit l] => (asReg d).bind fun d => (asByte l).map (i d)
  | _ => .error .wrongOperands

/-- Usage `MNEMONIC Rd, Rs`. -/
def asmRR (ops : List Operand) (i : Reg → Reg → Instr) : Except AsmError Instr :=
  match ops with
  | [.reg d, .reg r] => (asReg d).bind fun d => (asReg r).map (i d)
  | _ => .error .wrongOperands

/-- Usage `MNEMONIC R`, of one register. -/
def asmR (ops : List Operand) (i : Reg → Instr) : Except AsmError Instr :=
  match ops with
  | [.reg r] => (asReg r).map i
  | _ => .error .wrongOperands

/-- Usage `LDR Rd, [addr]`. -/
def asmLoad (ops : List Operand) (i : Reg → Addr → Instr) : Except AsmError Instr :=
  match ops with
  | [.reg d, .cell a] => (asReg d).bind fun d => (asByte a).map (i d)
  | _ => .error .wrongOperands

/-- Usage `STR [addr], Rs`. -/
def asmStore (ops : List Operand) (i : Addr → Reg → Instr) : Except AsmError Instr :=
  match ops with
  | [.cell a, .reg r] => (asByte a).bind fun a => (asReg r).map (i a)
  | _ => .error .wrongOperands

/-- The instruction an assembly statement stands for (R64, R66). A virtual instruction is replaced by its
expansion: INC by ADDL with 01, DEC by SUBL with 01, CLR by MOVL with 00 (R65). -/
def assemble (st : Statement) : Except AsmError Instr :=
  match st.mnemonic with
  | .nop => asmN st.operands .nop
  | .reti => asmN st.operands .reti
  | .retc => asmN st.operands .retc
  | .call => asmJ st.operands .call
  | .jmp => asmJ st.operands .jmp
  | .jz => asmJ st.operands .jz
  | .jc => asmJ st.operands .jc
  | .je => asmJ st.operands .je
  | .jg => asmJ st.operands .jg
  | .js => asmJ st.operands .js
  | .movl => asmRL st.operands .movl
  | .movr => asmRR st.operands .movr
  | .ldr => asmLoad st.operands .ldr
  | .str => asmStore st.operands .str
  | .push => asmR st.operands .push
  | .pop => asmR st.operands .pop
  | .not => asmR st.operands .not
  | .rr => asmR st.operands .rr
  | .rl => asmR st.operands .rl
  | .swap => asmR st.operands .swap
  | .inc => asmR st.operands (fun r => .addl r 0x01#8)
  | .dec => asmR st.operands (fun r => .subl r 0x01#8)
  | .clr => asmR st.operands (fun r => .movl r 0x00#8)
  | .andl => asmRL st.operands .andl
  | .andr => asmRR st.operands .andr
  | .orl => asmRL st.operands .orl
  | .orr => asmRR st.operands .orr
  | .xorl => asmRL st.operands .xorl
  | .xorr => asmRR st.operands .xorr
  | .addl => asmRL st.operands .addl
  | .addr => asmRR st.operands .addr
  | .subl => asmRL st.operands .subl
  | .subr => asmRR st.operands .subr
  | .cmpl => asmRL st.operands .cmpl
  | .cmpr => asmRR st.operands .cmpr

end Sys2Proof
end

