-- ==== Sys2Proof/Machine/Boot.lean ====
section
/-! DEFINITION. The configuration of `State.reset` (00_scope.md R5; 92_eei_decisions.md, the table of the open
parameters). A claim about a run from another configuration starts from `State.launch`. -/

namespace Sys2Proof.Machine

/-- The parameters of the machine that `State.reset` describes. RESET_PC and IRQ_PRESENT have the spec's
defaults (R5). DESIGN CHOICE (log 1, unsafe for claims about runs from reset): STACK_DEPTH and DATA_MAP are
those of the spec's test vectors, 8 entries and plain memory everywhere. The other five, for which the spec
gives no default, are opaque (log 5, safe). -/
def bootConfig : Config where
  subCfIsBorrow := Config.builtSubCfIsBorrow
  shiftFill := Config.builtShiftFill
  cmpSigned := Config.builtCmpSigned
  stackDepth := 8
  dataMap := []
  irqPresent := false
  irqVector := Config.builtIrqVector
  irqSavesFlags := Config.builtIrqSavesFlags
  resetPc := 0x00#8

end Sys2Proof.Machine
end

