-- ==== Sys2Proof/Machine/State.lean ====
section
/-! DEFINITION. The machine's state (10_state.md, its complete list in R29), the reasons a step can stop, and
the state after reset. -/

namespace Sys2Proof.Machine

/-- The five flags, each one bit (10_state.md R16). There is no flags register. -/
structure Flags where
  zf : Bool
  cf : Bool
  ef : Bool
  gf : Bool
  sf : Bool
deriving DecidableEq, Repr

/-- The kinds of stack entry (10_state.md R24). -/
inductive EntryKind where
  | data
  | call
  | irq
deriving DecidableEq, Repr

/-- A stack entry (10_state.md R24). The tag is a device of the spec's model, not a bit of the hardware. -/
inductive Entry where
  /-- Pushed by PUSH, popped by POP. -/
  | data (v : Byte)
  /-- A return address, pushed by CALL, popped by RETC. -/
  | call (a : Addr)
  /-- A return address with the saved flags, if they are saved: pushed by interrupt entry, popped by RETI. -/
  | irq (a : Addr) (f : Option Flags)
deriving DecidableEq, Repr

/-- The data space (10_state.md R22): the cells that hold a value, in the canonical form `Memory.wf`. -/
abbrev Memory := List Host.Cell

/-- The instruction space (10_state.md R21): the defined words of `PROGRAM`, in the canonical form
`Program.wf`. -/
abbrev Program := List (Nat × InstrWord)

/-- The state of the machine (10_state.md R29), with its parameters and the model's five own fields. -/
structure State where
  /-- The general registers `x[0]` to `x[7]` (R10, R11). -/
  regs : Vector Byte 8
  /-- The address of the instruction that executes next (R13). -/
  pc : Addr
  /-- The flags (R16). -/
  flags : Flags
  /-- The stack, its top entry first (R24, R25, R26). -/
  stack : List Entry
  /-- The interrupt-in-service bit (R27). -/
  inService : Bool
  /-- The data space (R22). -/
  data : Memory
  /-- The instruction space, the parameter `PROGRAM` (R21, 20_memory.md R36). -/
  program : Program
  /-- The other open parameters (00_scope.md R5), fixed for a run. -/
  cfg : Config
  /-- The MODEL's own: the interrupt request at the coming boundaries, the nearest first, as far as the schedule
  is fixed boundary by boundary (60_exceptions.md R164, log 8). -/
  irqLine : List Bool
  /-- The MODEL's own: the interrupt request at every boundary beyond `irqLine`, if the schedule fixes it there;
  with `none` it is the free value `Config.irqRequest` (R164, log 8). -/
  irqAfter : Option Bool
  /-- The MODEL's own: how many boundaries have been passed, the index of the free value (log 8). -/
  boundary : Nat
  /-- The MODEL's own: how many device reads have been made, the index of the next free value (log 6). -/
  deviceReads : Nat
  /-- The MODEL's own: the values handed to the environment, newest first (20_memory.md R31, log 7). -/
  deviceWrites : List Host.Cell
deriving DecidableEq, Repr

/-- The model faults (60_exceptions.md R160, R161): a closed list. Each records the `pc` of the instruction and
the value that R161 names. Every one of them is the spec's and is safe: the machine of the spec stops. -/
inductive Fault where
  /-- A `Ram` data cell is read that holds no value. Raised by LDR (20_memory.md R30). Safe. -/
  | unwrittenRead (pc : Addr) (address : Addr)
  /-- A sequential advance from 0xFF, or CALL at 0xFF. Raised by every instruction that advances `pc`, by an
  untaken conditional jump and by CALL (10_state.md R15, 40_jump.md R73). Safe. -/
  | pcOverrun (pc : Addr)
  /-- A fetch from an address where `PROGRAM` is undefined; the address is the `pc`. Raised by the fetch
  (20_memory.md R36). Safe. -/
  | noInstruction (pc : Addr)
  /-- A NOT, RR, RL or SWAP word whose two register copies differ. Raised at decode (30_encoding.md R61). Safe. -/
  | reservedEncoding (pc : Addr) (word : InstrWord)
  /-- A data address where `DATA_MAP` is `Absent`. Raised by LDR and STR (20_memory.md R30, R31). Safe. -/
  | unmappedData (pc : Addr) (address : Addr)
  /-- A push onto a stack of `STACK_DEPTH` entries. Raised by PUSH, CALL and interrupt entry (R25). Safe. -/
  | stackOverflow (pc : Addr)
  /-- A pop from an empty stack. Raised by POP, RETC and RETI (R26). Safe. -/
  | stackUnderflow (pc : Addr)
  /-- The top entry is of another kind than the one asked for. Raised by POP, RETC and RETI (R26). Safe. -/
  | stackKindMismatch (pc : Addr) (expected found : EntryKind)
deriving DecidableEq, Repr

/-- The model refuses nothing: every instruction has its meaning. -/
inductive Refusal where
  /-- An instruction that has no meaning yet, by its mnemonic. Raised by no arm of `exec`. Safe. -/
  | notModelled (mnemonic : String)
deriving DecidableEq, Repr

/-- What reset leaves without a value (10_state.md R12, R19; 70_reset_and_hazards.md R181): the registers and the
flags. Every register of this model holds a value, so the values are given here, and a claim about a launch or a
reset quantifies over them, as R12 allows ("may instead quantify over all 256 values"). -/
structure Unspecified where
  regs : Vector Byte 8
  flags : Flags
deriving DecidableEq, Repr

/-- The values `State.reset` takes. DESIGN CHOICE (log 2, log 3, unsafe): 0, where the spec states no value. -/
def Unspecified.zero : Unspecified where
  regs := Vector.replicate 8 0x00#8
  flags := ⟨false, false, false, false, false⟩

/-- The launch state of a run (70_reset_and_hazards.md R182; 10_state.md R29): the parameters, `PROGRAM`, and the
initial contents of the `Ram` cells that are supplied. The registers and flags are not supplied by a program: they
are whatever reset left, `u`, over which a claim quantifies. The spec makes the interrupt schedule a free input of
every run (60_exceptions.md R164). DESIGN CHOICE (log 8, safe): it is left wholly free here, for every
configuration: at each boundary the request is the free value `Config.irqRequest`, with IRQ_PRESENT true too. A
claim about another schedule sets `irqLine` and `irqAfter` of this state. -/
def State.launch (c : Config) (program : Program) (cells : Memory) (u : Unspecified) : State where
  regs := u.regs
  pc := c.resetPc
  flags := u.flags
  stack := []
  inService := false
  data := cells
  program := program
  cfg := c
  irqLine := []
  irqAfter := none
  boundary := 0
  deviceReads := 0
  deviceWrites := []

/-- The machine right after reset (10_state.md R29, 70_reset_and_hazards.md R180, R181): `pc` at RESET_PC, the
stack empty, no interrupt in service, no cell with a value, and no program loaded (log 10). Registers and flags are
0 (log 2, log 3). -/
def State.reset : State := State.launch bootConfig [] [] Unspecified.zero

end Sys2Proof.Machine
end

