-- ==== Sys2Proof/Machine/Ops.lean ====
section
/-! DEFINITION. The primitives of 00_scope.md R7 and the operations the instructions share: registers, flags,
the two memories, the stack, the program counter, interrupt entry and return, the reset event. -/

namespace Sys2Proof.Machine

/-- What one step answers. -/
abbrev Result := Host.Outcome State Fault Refusal

/-- Goes on with the value of a primitive, or raises the model fault it raised; then nothing is written
(00_scope.md R8). -/
def andThen {α : Type} (x : Except Fault α) (k : α → Result) : Result :=
  match x with
  | .ok a => k a
  | .error f => .fault f

/-! ## General registers -/

/-- `x[r]` (R7). No register is hard-wired or has a special role (10_state.md R10). -/
def State.reg (s : State) (r : Reg) : Byte := s.regs[r]

/-- `x[r] <- v` (R7). -/
def State.setReg (s : State) (r : Reg) (v : Byte) : State := { s with regs := s.regs.set r v }

/-! ## Flags -/

/-- The names of the flags (10_state.md R16). -/
inductive FlagName where
  | zf
  | cf
  | ef
  | gf
  | sf
deriving DecidableEq, Repr

/-- The value of a named flag. -/
def Flags.get (f : Flags) : FlagName → Bool
  | .zf => f.zf
  | .cf => f.cf
  | .ef => f.ef
  | .gf => f.gf
  | .sf => f.sf

/-- `ZF <- b`, the other flags unchanged (R7). -/
def State.setZF (s : State) (b : Bool) : State := { s with flags := { s.flags with zf := b } }

/-- `CF <- b`, the other flags unchanged (R7). -/
def State.setCF (s : State) (b : Bool) : State := { s with flags := { s.flags with cf := b } }

/-- `EF`, `GF` and `SF` written, ZF and CF unchanged (R7, 43_alu_two.md R133). -/
def State.setCompare (s : State) (e g l : Bool) : State :=
  { s with flags := { s.flags with ef := e, gf := g, sf := l } }

/-! ## Lists indexed by address -/

/-- The value at an address, if one is listed. -/
def cellAt {α : Type} : List (Nat × α) → Nat → Option α
  | [], _ => none
  | (b, v) :: rest, a => if a = b then some v else cellAt rest a

/-- The list with the value at an address replaced or inserted in its place. -/
def putCell {α : Type} : List (Nat × α) → Nat → α → List (Nat × α)
  | [], a, v => [(a, v)]
  | (b, u) :: rest, a, v =>
    if a < b then (a, v) :: (b, u) :: rest
    else if a = b then (a, v) :: rest
    else (b, u) :: putCell rest a v

/-! ## Data space -/

/-- What a `Ram` cell holds. A cell that is not listed holds no value: nothing has written it and the launch
state did not supply it (20_memory.md R30, D27; log 4). -/
def Memory.read (m : Memory) (a : Addr) : Option Byte := cellAt m a.toNat

/-- A `Ram` cell written (20_memory.md R31). -/
def Memory.write (m : Memory) (a : Addr) (v : Byte) : Memory := putCell m a.toNat v

/-- The canonical form: addresses 0 to 255, strictly rising. An unlisted cell has no value, so no listed value
equals what an unlisted cell reads as. -/
def Memory.wf (m : Memory) : Bool := rising m

/-- `DATA_MAP(a)` (20_memory.md R35). -/
def State.kindAt (s : State) (a : Addr) : CellKind := (cellAt s.cfg.dataMap a.toNat).getD .ram

/-- `MemRead(a, 1)` (20_memory.md R30). A device read answers a free value and moves on to the next one. -/
def memRead (a : Addr) (s : State) : Except Fault (Byte × State) :=
  match s.kindAt a with
  | .ram =>
    match s.data.read a with
    | some v => .ok (v, s)
    | none => .error (.unwrittenRead s.pc a)
  | .device => .ok (Config.deviceInput s.deviceReads a, { s with deviceReads := s.deviceReads + 1 })
  | .absent => .error (.unmappedData s.pc a)

/-- `MemWrite(a, 1, v)` (20_memory.md R31). A write to a device hands the value to the environment and changes
no state of the spec. -/
def memWrite (a : Addr) (v : Byte) (s : State) : Except Fault State :=
  match s.kindAt a with
  | .ram => .ok { s with data := s.data.write a v }
  | .device => .ok { s with deviceWrites := (a.toNat, v) :: s.deviceWrites }
  | .absent => .error (.unmappedData s.pc a)

/-! ## Instruction space -/

/-- `PROGRAM(a)`, where it is defined (20_memory.md R36). -/
def Program.word (p : Program) (a : Addr) : Option InstrWord := cellAt p a.toNat

/-- The program with the word at an address replaced. No instruction does this (20_memory.md R40): it stands for
loading the program. -/
def Program.load (p : Program) (a : Addr) (w : InstrWord) : Program := putCell p a.toNat w

/-- The canonical form: addresses 0 to 255, strictly rising. -/
def Program.wf (p : Program) : Bool := rising p

/-- `IFetch(pc)` (20_memory.md R36). -/
def fetch (s : State) : Except Fault InstrWord :=
  match s.program.word s.pc with
  | some w => .ok w
  | none => .error (.noInstruction s.pc)

/-- The fetched word decoded; a reserved word raises its fault before anything is executed
(00_scope.md R8, 30_encoding.md R61, R67). -/
def decodeFetched (w : InstrWord) (s : State) : Except Fault Instr :=
  match decode w with
  | .ok i => .ok i
  | .error (.reserved _ _ _) => .error (.reservedEncoding s.pc w)

/-! ## Program counter -/

/-- `pc <- t` (R7). -/
def jumpTo (t : Addr) (s : State) : Result := .next { s with pc := t }

/-- `pc <- pc + 1`, which raises `PcOverrun` at 0xFF (R7, 10_state.md R15). -/
def advance (s : State) : Result :=
  if s.pc = 0xFF#8 then .fault (.pcOverrun s.pc) else jumpTo (s.pc + 1#8) s

/-- A conditional jump on one flag (40_jump.md R71 (f), 10_state.md R14). -/
def branchOn (f : FlagName) (t : Addr) (s : State) : Result :=
  if s.flags.get f then jumpTo t s else advance s

/-! ## Stack -/

/-- The kind of an entry (10_state.md R24). -/
def Entry.kind : Entry → EntryKind
  | .data _ => .data
  | .call _ => .call
  | .irq _ _ => .irq

/-- The payload of a `Data` entry. -/
def Entry.asData : Entry → Option Byte
  | .data v => some v
  | .call _ => none
  | .irq _ _ => none

/-- The payload of a `Call` entry. -/
def Entry.asCall : Entry → Option Addr
  | .data _ => none
  | .call a => some a
  | .irq _ _ => none

/-- The payload of an `Irq` entry. -/
def Entry.asIrq : Entry → Option (Addr × Option Flags)
  | .data _ => none
  | .call _ => none
  | .irq a f => some (a, f)

/-- `Push(e)` (10_state.md R25). -/
def pushEntry (e : Entry) (s : State) : Except Fault State :=
  if s.stack.length = s.cfg.stackDepth then .error (.stackOverflow s.pc)
  else .ok { s with stack := e :: s.stack }

/-- `Pop(kind)` (10_state.md R26), with the payload of the kind asked for. -/
def popEntry {α : Type} (kind : EntryKind) (payload : Entry → Option α) (s : State) :
    Except Fault (α × State) :=
  match s.stack with
  | [] => .error (.stackUnderflow s.pc)
  | e :: rest =>
    match payload e with
    | some p => .ok (p, { s with stack := rest })
    | none => .error (.stackKindMismatch s.pc kind e.kind)

/-- `Pop(Data)`. -/
def popData (s : State) : Except Fault (Byte × State) := popEntry .data Entry.asData s

/-- `Pop(Call)`. -/
def popCall (s : State) : Except Fault (Addr × State) := popEntry .call Entry.asCall s

/-- `Pop(Irq)`. -/
def popIrq (s : State) : Except Fault ((Addr × Option Flags) × State) := popEntry .irq Entry.asIrq s

/-! ## Interrupts -/

/-- The environment raises the request at the `k`-th coming boundary, 0 being the nearest: the schedule of
60_exceptions.md R164. It is fixed by `irqLine`, beyond that by `irqAfter`, and is a free value where neither fixes
it (log 8). -/
def State.requestAt (s : State) (k : Nat) : Bool :=
  match s.irqLine[k]? with
  | some raised => raised
  | none => s.irqAfter.getD (Config.irqRequest (s.boundary + k))

/-- The environment raises the request at this boundary (R164). -/
def State.requestRaised (s : State) : Bool := s.requestAt 0

/-- An interrupt is accepted at this boundary (60_exceptions.md R165). A state of the model has no fault
recorded: a fault ends the run. -/
def State.acceptsInterrupt (s : State) : Bool :=
  s.cfg.irqPresent && s.requestRaised && !s.inService

/-- The boundary is passed: what the environment does there is behind us (60_exceptions.md R164). -/
def State.passBoundary (s : State) : State :=
  { s with irqLine := s.irqLine.tail, boundary := s.boundary + 1 }

/-- The request withdrawn at the coming boundary alone, so that the next step executes an instruction. -/
def withoutRequest (line : List Bool) : List Bool :=
  match line with
  | [] => [false]
  | _ :: rest => false :: rest

/-- Interrupt entry (60_exceptions.md R167): the return address and, by parameter, the flags are saved on the
stack, `in_service` is set, control goes to `IRQ_VECTOR`. -/
def enterInterrupt (s : State) : Result :=
  andThen (pushEntry (.irq s.pc (if s.cfg.irqSavesFlags then some s.flags else none)) s) fun t =>
    .next { t with inService := true, pc := t.cfg.irqVector }

/-- The flags RETI leaves: the saved ones if `IRQ_SAVES_FLAGS`, else the present ones (40_jump.md R72). An entry
that saved none under `IRQ_SAVES_FLAGS` is no state of the machine (log 16). -/
def restoredFlags (saves : Bool) (saved : Option Flags) (present : Flags) : Flags :=
  if saves then saved.getD present else present

/-- Return from interrupt (40_jump.md R72, 60_exceptions.md R168). -/
def returnFromInterrupt (s : State) : Result :=
  andThen (popIrq s) fun ((a, f), t) =>
    .next { t with flags := restoredFlags t.cfg.irqSavesFlags f t.flags, inService := false, pc := a }

/-! ## Reset -/

/-- The reset event (70_reset_and_hazards.md R180, R181): `pc` at RESET_PC, the stack empty, no interrupt in
service, no cell with a value; PROGRAM and the parameters stand. The registers and flags, which the spec leaves
without a value, are `u`: a claim quantifies over it (log 15). The model's own fields go on. -/
def resetEvent (u : Unspecified) (s : State) : State :=
  { State.launch s.cfg s.program [] u with
    irqLine := s.irqLine, irqAfter := s.irqAfter, boundary := s.boundary,
    deviceReads := s.deviceReads, deviceWrites := s.deviceWrites }

end Sys2Proof.Machine
end

