-- ==== Sys2Proof/Machine/AluSingle.lean ====
section
/-! DEFINITION. The ALU operations with a single operand (42_alu_single.md): NOT, RR, RL, SWAP. A word whose two
register copies differ never reaches these meanings: the decoder rejects it (R111 (b)). -/

namespace Sys2Proof.Machine

/-- The result goes to Rds and ZF reports it; the other flags stay (R111 (a), (c), (d)). -/
def writeSingle (rds : Reg) (r : Byte) (s : State) : State := (s.setReg rds r).setZF (zeroFlag r)

/-- NOT Rds (R110). -/
def execNot (rds : Reg) (s : State) : Result := advance (writeSingle rds (~~~(s.reg rds)) s)

/-- RR Rds (R112). -/
def execRr (rds : Reg) (s : State) : Result :=
  let v := s.reg rds
  let inb := shiftIn s.cfg.shiftFill s.flags.cf (rightLeaving v)
  advance ((writeSingle rds (rightResult inb v) s).setCF (rightLeaving v))

/-- RL Rds (R113). -/
def execRl (rds : Reg) (s : State) : Result :=
  let v := s.reg rds
  let inb := shiftIn s.cfg.shiftFill s.flags.cf (leftLeaving v)
  advance ((writeSingle rds (leftResult inb v) s).setCF (leftLeaving v))

/-- SWAP Rds (R114). -/
def execSwap (rds : Reg) (s : State) : Result := advance (writeSingle rds (swapResult (s.reg rds)) s)

end Sys2Proof.Machine
end

