-- ==== Sys2Proof/Machine/Operands.lean ====
section
/-! DEFINITION. The operand forms (30_encoding.md R57, R58; 43_alu_two.md R130 (a)). -/

namespace Sys2Proof.Machine

/-- The second operand of a two-operand instruction: the literal of the `L` forms, the register of the `R`
forms (43_alu_two.md R130 (a)). -/
inductive Operand2 where
  | literal (l : Byte)
  | register (rs : Reg)
deriving DecidableEq, Repr

/-- The value `b` of the second operand: the literal as it stands (30_encoding.md R57), or `x[Rs]`. -/
def operandValue (s : State) : Operand2 → Byte
  | .literal l => l
  | .register rs => s.reg rs

end Sys2Proof.Machine
end

