-- ==== Sys2Proof/Machine/AluTwo.lean ====
section
/-! DEFINITION. The ALU operations with two operands (43_alu_two.md): ANDL, ANDR, ORL, ORR, XORL, XORR, ADDL, ADDR,
SUBL, SUBR, CMPL, CMPR. Both operands are read before the result is written (R130 (c)). -/

namespace Sys2Proof.Machine

/-- The logic law (R134): the result goes to Rd, ZF reports it, CF stays. -/
def aluLogic (f : Byte → Byte → Byte) (rd : Reg) (b : Operand2) (s : State) : Result :=
  let r := f (s.reg rd) (operandValue s b)
  advance ((s.setReg rd r).setZF (zeroFlag r))

/-- The addition law (R131). -/
def aluAdd (rd : Reg) (b : Operand2) (s : State) : Result :=
  let x := s.reg rd
  let y := operandValue s b
  advance (((s.setReg rd (addResult x y)).setCF (addCarry x y)).setZF (zeroFlag (addResult x y)))

/-- The subtraction law (R132). -/
def aluSub (rd : Reg) (b : Operand2) (s : State) : Result :=
  let x := s.reg rd
  let y := operandValue s b
  advance (((s.setReg rd (subResult x y)).setCF (subCarry s.cfg.subCfIsBorrow x y)).setZF
    (zeroFlag (subResult x y)))

/-- The comparison law (R133): no register is written. -/
def aluCompare (rd : Reg) (b : Operand2) (s : State) : Result :=
  let x := s.reg rd
  let y := operandValue s b
  let sg := s.cfg.cmpSigned
  advance (s.setCompare (cmpEqual sg x y) (cmpGreater sg x y) (cmpSmaller sg x y))

/-- ANDL Rd, L (R140). -/
def execAndl (rd : Reg) (l : Byte) (s : State) : Result := aluLogic (· &&& ·) rd (.literal l) s

/-- ANDR Rd, Rs (R141). -/
def execAndr (rd rs : Reg) (s : State) : Result := aluLogic (· &&& ·) rd (.register rs) s

/-- ORL Rd, L (R142). -/
def execOrl (rd : Reg) (l : Byte) (s : State) : Result := aluLogic (· ||| ·) rd (.literal l) s

/-- ORR Rd, Rs (R143). -/
def execOrr (rd rs : Reg) (s : State) : Result := aluLogic (· ||| ·) rd (.register rs) s

/-- XORL Rd, L (R144). -/
def execXorl (rd : Reg) (l : Byte) (s : State) : Result := aluLogic (· ^^^ ·) rd (.literal l) s

/-- XORR Rd, Rs (R145). -/
def execXorr (rd rs : Reg) (s : State) : Result := aluLogic (· ^^^ ·) rd (.register rs) s

/-- ADDL Rd, L (R146). -/
def execAddl (rd : Reg) (l : Byte) (s : State) : Result := aluAdd rd (.literal l) s

/-- ADDR Rd, Rs (R147). -/
def execAddr (rd rs : Reg) (s : State) : Result := aluAdd rd (.register rs) s

/-- SUBL Rd, L (R148). -/
def execSubl (rd : Reg) (l : Byte) (s : State) : Result := aluSub rd (.literal l) s

/-- SUBR Rd, Rs (R149). -/
def execSubr (rd rs : Reg) (s : State) : Result := aluSub rd (.register rs) s

/-- CMPL Rd, L (R150). -/
def execCmpl (rd : Reg) (l : Byte) (s : State) : Result := aluCompare rd (.literal l) s

/-- CMPR Rd, Rs (R151). -/
def execCmpr (rd rs : Reg) (s : State) : Result := aluCompare rd (.register rs) s

end Sys2Proof.Machine
end

