-- ==== Sys2Proof/Machine/Jump.lean ====
section
/-! DEFINITION. The jump family (40_jump.md): NOP, RETI, RETC, CALL, JMP, JZ, JC, JE, JG, JS. -/

namespace Sys2Proof.Machine

/-- NOP (R70). -/
def execNop (s : State) : Result := advance s

/-- RETI (R72). -/
def execReti (s : State) : Result := returnFromInterrupt s

/-- RETC (R74). -/
def execRetc (s : State) : Result := andThen (popCall s) fun (a, t) => jumpTo a t

/-- CALL addr (R73): `PcOverrun` is checked before the push (60_exceptions.md R162). -/
def execCall (a : Addr) (s : State) : Result :=
  if s.pc = 0xFF#8 then .fault (.pcOverrun s.pc)
  else andThen (pushEntry (.call (s.pc + 1#8)) s) (jumpTo a)

/-- JMP addr (R75). -/
def execJmp (a : Addr) (s : State) : Result := jumpTo a s

/-- JZ addr (R76). -/
def execJz (a : Addr) (s : State) : Result := branchOn .zf a s

/-- JC addr (R77). -/
def execJc (a : Addr) (s : State) : Result := branchOn .cf a s

/-- JE addr (R78). -/
def execJe (a : Addr) (s : State) : Result := branchOn .ef a s

/-- JG addr (R79). -/
def execJg (a : Addr) (s : State) : Result := branchOn .gf a s

/-- JS addr (R80). -/
def execJs (a : Addr) (s : State) : Result := branchOn .sf a s

end Sys2Proof.Machine
end

