-- ==== Sys2Proof/Machine/RegMem.lean ====
section
/-! DEFINITION. The register and memory family (41_register_memory.md): MOVL, MOVR, LDR, STR, PUSH, POP. None
writes a flag (R96). -/

namespace Sys2Proof.Machine

/-- MOVL Rd, L (R90). -/
def execMovl (rd : Reg) (l : Byte) (s : State) : Result :=
  advance (s.setReg rd (operandValue s (.literal l)))

/-- MOVR Rd, Rs (R91). -/
def execMovr (rd rs : Reg) (s : State) : Result :=
  advance (s.setReg rd (operandValue s (.register rs)))

/-- LDR Rd, [addr] (R92). -/
def execLdr (rd : Reg) (a : Addr) (s : State) : Result :=
  andThen (memRead a s) fun (v, t) => advance (t.setReg rd v)

/-- STR [addr], Rs (R93). -/
def execStr (a : Addr) (rs : Reg) (s : State) : Result := andThen (memWrite a (s.reg rs) s) advance

/-- PUSH Rs (R94). -/
def execPush (rs : Reg) (s : State) : Result := andThen (pushEntry (.data (s.reg rs)) s) advance

/-- POP Rd (R95). -/
def execPop (rd : Reg) (s : State) : Result := andThen (popData s) fun (v, t) => advance (t.setReg rd v)

end Sys2Proof.Machine
end

