-- ==== Sys2Proof/Machine/Dispatch.lean ====
section
/-! DEFINITION. The meaning of every instruction, one arm per constructor of `Instr`. -/

namespace Sys2Proof.Machine

def exec (i : Instr) (s : State) : Host.Outcome State Fault Refusal :=
  match i with
  | .nop => Sys2Proof.Machine.execNop s
  | .reti => Sys2Proof.Machine.execReti s
  | .retc => Sys2Proof.Machine.execRetc s
  | .call a => Sys2Proof.Machine.execCall a s
  | .jmp a => Sys2Proof.Machine.execJmp a s
  | .jz a => Sys2Proof.Machine.execJz a s
  | .jc a => Sys2Proof.Machine.execJc a s
  | .je a => Sys2Proof.Machine.execJe a s
  | .jg a => Sys2Proof.Machine.execJg a s
  | .js a => Sys2Proof.Machine.execJs a s
  | .movl rd l => Sys2Proof.Machine.execMovl rd l s
  | .movr rd rs => Sys2Proof.Machine.execMovr rd rs s
  | .ldr rd a => Sys2Proof.Machine.execLdr rd a s
  | .str a rs => Sys2Proof.Machine.execStr a rs s
  | .push rs => Sys2Proof.Machine.execPush rs s
  | .pop rd => Sys2Proof.Machine.execPop rd s
  | .not rds => Sys2Proof.Machine.execNot rds s
  | .rr rds => Sys2Proof.Machine.execRr rds s
  | .rl rds => Sys2Proof.Machine.execRl rds s
  | .swap rds => Sys2Proof.Machine.execSwap rds s
  | .andl rd l => Sys2Proof.Machine.execAndl rd l s
  | .andr rd rs => Sys2Proof.Machine.execAndr rd rs s
  | .orl rd l => Sys2Proof.Machine.execOrl rd l s
  | .orr rd rs => Sys2Proof.Machine.execOrr rd rs s
  | .xorl rd l => Sys2Proof.Machine.execXorl rd l s
  | .xorr rd rs => Sys2Proof.Machine.execXorr rd rs s
  | .addl rd l => Sys2Proof.Machine.execAddl rd l s
  | .addr rd rs => Sys2Proof.Machine.execAddr rd rs s
  | .subl rd l => Sys2Proof.Machine.execSubl rd l s
  | .subr rd rs => Sys2Proof.Machine.execSubr rd rs s
  | .cmpl rd l => Sys2Proof.Machine.execCmpl rd l s
  | .cmpr rd rs => Sys2Proof.Machine.execCmpr rd rs s

end Sys2Proof.Machine
end

