-- ==== Sys2Proof/Machine/Step.lean ====
section
/-! DEFINITION. One step (00_scope.md R8), and the loading of one instruction at the place step fetches from. -/

namespace Sys2Proof.Machine

/-- One step: an accepted interrupt is entered and the step ends; otherwise the word at `pc` is fetched, decoded
and executed (00_scope.md R8, 60_exceptions.md R166). -/
def step (s : State) : Host.Outcome State Fault Refusal :=
  if s.acceptsInterrupt then enterInterrupt s.passBoundary
  else
    andThen (fetch s.passBoundary) fun w =>
      andThen (decodeFetched w s.passBoundary) fun i => exec i s.passBoundary

/-- The state with the word stored at `pc` in the instruction space, where the next step fetches it. It stands
for loading the program from outside the machine (log 10). A request at the coming boundary is withdrawn, so that
the next step runs this instruction. -/
def State.withFetchWord (s : State) (nbits w : Nat) : State :=
  { s with
    program := s.program.load s.pc (tableWord nbits w)
    irqLine := withoutRequest s.irqLine }

end Sys2Proof.Machine
end

