-- ==== Sys2Proof/Safety.lean ====
section
/-! DEFINITION. What counts as a safe run: the invariant of the machine, the fault status a model keeps beside
the state, and the end of a run. -/

namespace Sys2Proof.Safety

open Sys2Proof.Machine

/-! ## The invariant -/

/-- The entry was pushed by interrupt entry. -/
def isIrq (e : Entry) : Bool := decide (e.kind = .irq)

/-- An `Irq` entry holds saved flags exactly if `IRQ_SAVES_FLAGS` (10_state.md R24). -/
def savesAsConfigured (c : Config) : Entry → Bool
  | .data _ => true
  | .call _ => true
  | .irq _ f => f.isSome == c.irqSavesFlags

/-- What every state of the machine satisfies: the two memories are in canonical form, the stack is within its
depth (R25), each interrupt frame is as configured (R24), there is one frame exactly while an interrupt is in
service (R27, 60_exceptions.md R169), and none is in service where interrupts do not exist (R163). -/
structure Inv (s : State) : Prop where
  data_wf : s.data.wf = true
  program_wf : s.program.wf = true
  stack_le : s.stack.length ≤ s.cfg.stackDepth
  frames : s.stack.all (savesAsConfigured s.cfg) = true
  one_frame : s.stack.countP isIrq = if s.inService then 1 else 0
  no_irq : s.cfg.irqPresent = false → s.inService = false

/-! ## The fault status -/

/-- The machine with the fault status a model keeps besides its state (10_state.md R28): the kind, the value and
the `pc` are in the fault itself (60_exceptions.md R160, R161). -/
structure Monitor where
  state : State
  status : Option Fault
deriving DecidableEq, Repr

/-- One step under the fault status: none is taken once a fault is recorded, and a step that faults records it
and changes nothing (R28, R160). A refusal takes no step; no instruction raises one. -/
def Monitor.step (m : Monitor) : Monitor :=
  match m.status with
  | some _ => m
  | none =>
    match Machine.step m.state with
    | .next s => { m with state := s }
    | .fault f => { m with status := some f }
    | .refused _ => m

/-- `k` steps under the fault status. -/
def Monitor.steps : Nat → Monitor → Monitor
  | 0, m => m
  | k + 1, m => (m.step).steps k

/-- A run is safe for `k` steps if it records no fault in them. -/
def safeFor (k : Nat) (s : State) : Bool := ((Monitor.mk s none).steps k).status.isNone

/-! ## The end of a run -/

/-- The instruction at `pc` is a JMP to its own address (40_jump.md R82). -/
def atSelfJump (s : State) : Bool :=
  match s.program.word s.pc with
  | some w => decide ((decode w).toOption = some (.jmp s.pc))
  | none => false

/-- No interrupt can be accepted from here on, unless `in_service` changes: interrupts do not exist, one is in
service (60_exceptions.md R165), or the environment raises no further request (R164). -/
def noInterruptToCome (s : State) : Prop :=
  s.cfg.irqPresent = false ∨ s.inService = true ∨ ∀ k, s.requestAt k = false

/-- A run has ended (40_jump.md R82): the instruction at `pc` is a JMP to its own address and no interrupt can be
accepted. In a handler none can: a request raised there is no event (60_exceptions.md R164, R165), and the JMP never
leaves it. A state has no fault recorded. -/
def runEnded (s : State) : Prop := atSelfJump s = true ∧ noInterruptToCome s

end Sys2Proof.Safety
end

