-- ==== Sys2Proof/Certificates/Slice0/Obligations.lean ====
section
/-! DEFINITION. The statements for the provers. The tables and laws below are transcribed from the spec, not
taken from the model's meanings. -/

namespace Sys2Proof.Spec

open Sys2Proof.Machine

/-! ## Tables of the spec, as functions of the instruction -/

/-- The don't-care bits of a word, by its opcode: 10-0 in format N, 10-8 in J, 7-0 in R, 4-0 in RR and RD, none in
RI (30_encoding.md R51 to R56, R60). -/
def dontCare (w : InstrWord) : InstrWord :=
  let op := (w.extractLsb' 11 5).toNat
  if op ≤ 2 then 0x07FF#16
  else if op ≤ 9 then 0x0700#16
  else if op = 14 ∨ op = 15 then 0x00FF#16
  else if op = 11 ∨ (16 ≤ op ∧ op ≤ 19) ∨ (20 ≤ op ∧ op % 2 = 1) then 0x001F#16
  else 0x0000#16

/-- The opcode number of an instruction (30_encoding.md R59). -/
def opcode : Instr → Nat
  | .nop => 0 | .reti => 1 | .retc => 2 | .call _ => 3 | .jmp _ => 4 | .jz _ => 5 | .jc _ => 6 | .je _ => 7
  | .jg _ => 8 | .js _ => 9 | .movl _ _ => 10 | .movr _ _ => 11 | .ldr _ _ => 12 | .str _ _ => 13
  | .push _ => 14 | .pop _ => 15 | .not _ => 16 | .rr _ => 17 | .rl _ => 18 | .swap _ => 19
  | .andl _ _ => 20 | .andr _ _ => 21 | .orl _ _ => 22 | .orr _ _ => 23 | .xorl _ _ => 24 | .xorr _ _ => 25
  | .addl _ _ => 26 | .addr _ _ => 27 | .subl _ _ => 28 | .subr _ _ => 29 | .cmpl _ _ => 30 | .cmpr _ _ => 31

/-- The operand bits of the canonical word, by format (30_encoding.md R66). -/
def operandBits : Instr → Nat
  | .nop | .reti | .retc => 0
  | .call a | .jmp a | .jz a | .jc a | .je a | .jg a | .js a => a.toNat
  | .movl d l | .andl d l | .orl d l | .xorl d l | .addl d l | .subl d l | .cmpl d l => (d.val <<< 8) ||| l.toNat
  | .ldr d a => (d.val <<< 8) ||| a.toNat
  | .str a r => (r.val <<< 8) ||| a.toNat
  | .movr d r | .andr d r | .orr d r | .xorr d r | .addr d r | .subr d r | .cmpr d r =>
    (d.val <<< 8) ||| (r.val <<< 5)
  | .push r => r.val <<< 8
  | .pop d => d.val <<< 8
  | .not r | .rr r | .rl r | .swap r => (r.val <<< 8) ||| (r.val <<< 5)

/-- The register an instruction writes (10_state.md, the table under R11). -/
def destination : Instr → Option Reg
  | .movl d _ | .movr d _ | .ldr d _ | .pop d => some d
  | .not d | .rr d | .rl d | .swap d => some d
  | .andl d _ | .andr d _ | .orl d _ | .orr d _ | .xorl d _ | .xorr d _ => some d
  | .addl d _ | .addr d _ | .subl d _ | .subr d _ => some d
  | .nop | .reti | .retc | .call _ | .jmp _ | .jz _ | .jc _ | .je _ | .jg _ | .js _ => none
  | .str _ _ | .push _ | .cmpl _ _ | .cmpr _ _ => none

/-- The flags an instruction writes (10_state.md R17); `saves` is `IRQ_SAVES_FLAGS`. -/
def flagsWritten (saves : Bool) : Instr → List FlagName
  | .not _ | .swap _ => [.zf]
  | .rr _ | .rl _ => [.cf, .zf]
  | .andl _ _ | .andr _ _ | .orl _ _ | .orr _ _ | .xorl _ _ | .xorr _ _ => [.zf]
  | .addl _ _ | .addr _ _ | .subl _ _ | .subr _ _ => [.zf, .cf]
  | .cmpl _ _ | .cmpr _ _ => [.ef, .sf, .gf]
  | .reti => if saves then [.zf, .cf, .ef, .gf, .sf] else []
  | .nop | .retc | .call _ | .jmp _ | .jz _ | .jc _ | .je _ | .jg _ | .js _ => []
  | .movl _ _ | .movr _ _ | .ldr _ _ | .str _ _ | .push _ | .pop _ => []

/-- The flags an instruction reads (10_state.md R18). -/
def flagsRead (fill : ShiftFill) : Instr → List FlagName
  | .jz _ => [.zf]
  | .jc _ => [.cf]
  | .je _ => [.ef]
  | .jg _ => [.gf]
  | .js _ => [.sf]
  | .rr _ | .rl _ => if fill = .carry then [.cf] else []
  | _ => []

/-- The instructions that advance `pc` by one (10_state.md R14, first row). -/
def sequential : Instr → Bool
  | .reti | .retc | .call _ | .jmp _ | .jz _ | .jc _ | .je _ | .jg _ | .js _ => false
  | _ => true

/-- The `pc` after an instruction that goes on (10_state.md R14). -/
def nextPc (i : Instr) (s : State) (p : Addr) : Prop :=
  match i with
  | .jmp a | .call a => p = a
  | .jz a => p = if s.flags.zf then a else s.pc + 1#8
  | .jc a => p = if s.flags.cf then a else s.pc + 1#8
  | .je a => p = if s.flags.ef then a else s.pc + 1#8
  | .jg a => p = if s.flags.gf then a else s.pc + 1#8
  | .js a => p = if s.flags.sf then a else s.pc + 1#8
  | .retc => s.stack.head? = some (.call p)
  | .reti => ∃ f, s.stack.head? = some (.irq p f)
  | _ => p = s.pc + 1#8

/-- The address of the cell an instruction stores to: the address field of STR (41_register_memory.md R93). -/
def storeAddress : Instr → Option Addr
  | .str a _ => some a
  | _ => none

/-- The instructions that push or pop (10_state.md R23). -/
def usesStack : Instr → Bool
  | .push _ | .pop _ | .call _ | .retc | .reti => true
  | _ => false

/-! ## Shapes of statements -/

/-- The instruction completes with `r` in `rd`, the flags `f`, `pc + 1`, and nothing else changed. -/
def Writes (i : Instr) (s : State) (rd : Reg) (r : Byte) (f : Flags) : Prop :=
  exec i s = .next { s with regs := s.regs.set rd r, flags := f, pc := s.pc + 1#8 }

/-- A conditional jump on a flag whose value is `c` (40_jump.md R76 to R80). -/
def JumpsIf (i : Instr) (c : Bool) (a : Addr) (s : State) : Prop :=
  (c = true → exec i s = .next { s with pc := a }) ∧
  (c = false → s.pc ≠ 0xFF#8 → exec i s = .next { s with pc := s.pc + 1#8 }) ∧
  (c = false → s.pc = 0xFF#8 → exec i s = .fault (.pcOverrun s.pc))

/-- `r` is formed bit by bit from `a` and `b` (43_alu_two.md R134). -/
def Bitwise (op : Bool → Bool → Bool) (a b r : Byte) : Prop :=
  ∀ i, i < 8 → r.getLsbD i = op (a.getLsbD i) (b.getLsbD i)

/-- The addition law for operands `x` and `y` (43_alu_two.md R131). -/
def Adds (i : Instr) (s : State) (rd : Reg) (x y : Byte) : Prop :=
  ∃ r : Byte, r.toNat = (x.toNat + y.toNat) % 256 ∧
    Writes i s rd r { s.flags with cf := decide (256 ≤ x.toNat + y.toNat), zf := decide (r = 0x00#8) } ∧
    (-128 ≤ x.toInt + y.toInt → x.toInt + y.toInt ≤ 127 → r.toInt = x.toInt + y.toInt)

/-- The subtraction law for operands `x` and `y` (43_alu_two.md R132). -/
def Subtracts (i : Instr) (s : State) (rd : Reg) (x y : Byte) : Prop :=
  ∃ r : Byte, (r.toNat : Int) = ((x.toNat : Int) - (y.toNat : Int)) % 256 ∧
    Writes i s rd r { s.flags with
      cf := if s.cfg.subCfIsBorrow then decide (x.toNat < y.toNat) else !decide (x.toNat < y.toNat)
      zf := decide (r = 0x00#8) } ∧
    (r = 0x00#8 ↔ x = y)

/-- The comparison law for operands `x` and `y` (43_alu_two.md R133). -/
def Compares (i : Instr) (s : State) (x y : Byte) : Prop :=
  ∃ e g l : Bool,
    exec i s = .next { s with flags := { s.flags with ef := e, gf := g, sf := l }, pc := s.pc + 1#8 } ∧
    (s.cfg.cmpSigned = false →
      e = decide (x.toNat = y.toNat) ∧ g = decide (y.toNat < x.toNat) ∧ l = decide (x.toNat < y.toNat)) ∧
    (s.cfg.cmpSigned = true →
      e = decide (x.toInt = y.toInt) ∧ g = decide (y.toInt < x.toInt) ∧ l = decide (x.toInt < y.toInt)) ∧
    (e.toNat + g.toNat + l.toNat = 1) ∧
    (e = true ↔ x = y) ∧
    (x.getLsbD 7 = y.getLsbD 7 → g = decide (y.toNat < x.toNat) ∧ l = decide (x.toNat < y.toNat)) ∧
    (x.getLsbD 7 = true → y.getLsbD 7 = false → g = !s.cfg.cmpSigned ∧ l = s.cfg.cmpSigned) ∧
    (x.getLsbD 7 = false → y.getLsbD 7 = true → g = s.cfg.cmpSigned ∧ l = !s.cfg.cmpSigned)

/-- The bit that a one-bit shift brings in, by `SHIFT_FILL` (42_alu_single.md R112, R113). -/
def entering (s : State) (leaving : Bool) : Bool :=
  match s.cfg.shiftFill with
  | .zero => false
  | .carry => s.flags.cf
  | .rotate => leaving

/-- The environment raises the request at this boundary and it is accepted (60_exceptions.md R165). How the state
holds the schedule of R164 is the model's own (log 8): `requestAt k` is the request at the `k`-th coming boundary.
-/
def Accepted (s : State) : Prop :=
  s.cfg.irqPresent = true ∧ s.requestAt 0 = true ∧ s.inService = false

/-- The state in which an instruction executes once the boundary before it is passed without an interrupt: the
schedule has moved on by one boundary (60_exceptions.md R164; the two fields are the model's own, log 8). -/
def pastBoundary (s : State) : State := { s with irqLine := s.irqLine.tail, boundary := s.boundary + 1 }

/-- A change of the next state, a fault left as it is. -/
def mapNext (f : State → State) : Result → Result
  | .next t => .next (f t)
  | .fault e => .fault e
  | .refused r => .refused r

/-- The flags with one of them set to a value. -/
def withFlag (f : Flags) (n : FlagName) (b : Bool) : Flags :=
  match n with
  | .zf => { f with zf := b }
  | .cf => { f with cf := b }
  | .ef => { f with ef := b }
  | .gf => { f with gf := b }
  | .sf => { f with sf := b }

/-- The instructions of a list, executed one after the other. -/
def execAll : List Instr → State → Result
  | [], s => .next s
  | i :: rest, s =>
    match exec i s with
    | .next t => execAll rest t
    | .fault e => .fault e
    | .refused r => .refused r

/-- In the next `k` steps no instruction executed is a STR to the cell at `a`. -/
def noStoreTo (a : Addr) : Nat → State → Prop
  | 0, _ => True
  | k + 1, s =>
    (¬ Accepted s → ∀ w i, s.program.word s.pc = some w → decode w = .ok i → storeAddress i ≠ some a) ∧
    (∀ t, step s = .next t → noStoreTo a k t)

end Sys2Proof.Spec

open Sys2Proof Sys2Proof.Machine Sys2Proof.Safety

/-! ## Encoding -/

/-- Decoding the canonical word of an instruction gives the instruction back; encoding a decoded instruction gives
the word with its don't-care bits cleared (30_encoding.md, the last sentence of R67). -/
def Obligations.DecodeEncodeRoundTrip : Prop :=
  (∀ i : Instr, decode (encode i) = .ok i) ∧
  (∀ (w : InstrWord) (i : Instr), decode w = .ok i → encode i = w &&& ~~~(Spec.dontCare w))

/-- The opcode map: bits 15-11 select the instruction, the fields are read from their places, and a word of format
RD whose copies differ is reserved (30_encoding.md R59, R61, R67). -/
def Obligations.DecodeFollowsOpcodeMap : Prop :=
  ∀ (w : InstrWord) (op : BitVec 5) (d r : Reg) (imm : Byte),
    w.extractLsb' 11 5 = op → w.extractLsb' 8 3 = BitVec.ofNat 3 d → w.extractLsb' 5 3 = BitVec.ofNat 3 r →
    w.extractLsb' 0 8 = imm →
    (op = 0b00000#5 → decode w = .ok .nop) ∧
    (op = 0b00001#5 → decode w = .ok .reti) ∧
    (op = 0b00010#5 → decode w = .ok .retc) ∧
    (op = 0b00011#5 → decode w = .ok (.call imm)) ∧
    (op = 0b00100#5 → decode w = .ok (.jmp imm)) ∧
    (op = 0b00101#5 → decode w = .ok (.jz imm)) ∧
    (op = 0b00110#5 → decode w = .ok (.jc imm)) ∧
    (op = 0b00111#5 → decode w = .ok (.je imm)) ∧
    (op = 0b01000#5 → decode w = .ok (.jg imm)) ∧
    (op = 0b01001#5 → decode w = .ok (.js imm)) ∧
    (op = 0b01010#5 → decode w = .ok (.movl d imm)) ∧
    (op = 0b01011#5 → decode w = .ok (.movr d r)) ∧
    (op = 0b01100#5 → decode w = .ok (.ldr d imm)) ∧
    (op = 0b01101#5 → decode w = .ok (.str imm d)) ∧
    (op = 0b01110#5 → decode w = .ok (.push d)) ∧
    (op = 0b01111#5 → decode w = .ok (.pop d)) ∧
    (op = 0b10000#5 → d = r → decode w = .ok (.not d)) ∧
    (op = 0b10001#5 → d = r → decode w = .ok (.rr d)) ∧
    (op = 0b10010#5 → d = r → decode w = .ok (.rl d)) ∧
    (op = 0b10011#5 → d = r → decode w = .ok (.swap d)) ∧
    (16 ≤ op.toNat → op.toNat ≤ 19 → d ≠ r → decode w = .error (.reserved op d r)) ∧
    (op = 0b10100#5 → decode w = .ok (.andl d imm)) ∧
    (op = 0b10101#5 → decode w = .ok (.andr d r)) ∧
    (op = 0b10110#5 → decode w = .ok (.orl d imm)) ∧
    (op = 0b10111#5 → decode w = .ok (.orr d r)) ∧
    (op = 0b11000#5 → decode w = .ok (.xorl d imm)) ∧
    (op = 0b11001#5 → decode w = .ok (.xorr d r)) ∧
    (op = 0b11010#5 → decode w = .ok (.addl d imm)) ∧
    (op = 0b11011#5 → decode w = .ok (.addr d r)) ∧
    (op = 0b11100#5 → decode w = .ok (.subl d imm)) ∧
    (op = 0b11101#5 → decode w = .ok (.subr d r)) ∧
    (op = 0b11110#5 → decode w = .ok (.cmpl d imm)) ∧
    (op = 0b11111#5 → decode w = .ok (.cmpr d r))

/-- Don't-care bits take no part in decoding, are 0 in the canonical word, and leave each N instruction its 2048
words (30_encoding.md R60). -/
def Obligations.DontCareBitsAreIgnored : Prop :=
  (∀ w v : InstrWord, w &&& ~~~(Spec.dontCare w) = v &&& ~~~(Spec.dontCare v) → decode w = decode v) ∧
  (∀ i : Instr, encode i &&& Spec.dontCare (encode i) = 0#16) ∧
  (∀ w : InstrWord, decode w = .ok .nop ↔ w.toNat < 0x0800) ∧
  (∀ w : InstrWord, decode w = .ok .reti ↔ (0x0800 ≤ w.toNat ∧ w.toNat < 0x1000)) ∧
  (∀ w : InstrWord, decode w = .ok .retc ↔ (0x1000 ≤ w.toNat ∧ w.toNat < 0x1800))

/-- The only words that are not instructions are those of NOT, RR, RL and SWAP whose register copies differ, and a
step that fetches one faults before anything is written (30_encoding.md R61, R62). -/
def Obligations.ReservedWordsFault : Prop :=
  (∀ w : InstrWord, (∃ e, decode w = .error e) ↔
    (16 ≤ (w.extractLsb' 11 5).toNat ∧ (w.extractLsb' 11 5).toNat ≤ 19 ∧
      w.extractLsb' 5 3 ≠ w.extractLsb' 8 3)) ∧
  (∀ (s : State) (w : InstrWord) (e : DecodeError), ¬ Spec.Accepted s → s.program.word s.pc = some w →
    decode w = .error e → step s = .fault (.reservedEncoding s.pc w))

/-- The canonical word as a number, and the rejection of an operand outside its range (30_encoding.md R66). -/
def Obligations.CanonicalEncodingFormula : Prop :=
  (∀ i : Instr, (encode i).toNat = (Spec.opcode i <<< 11) ||| Spec.operandBits i) ∧
  (∀ st : Statement, (∃ o ∈ st.operands,
      (∃ n, o = .reg n ∧ 8 ≤ n) ∨ (∃ n, (o = .lit n ∨ o = .addr n ∨ o = .cell n) ∧ 256 ≤ n)) →
    ∀ i, assemble st ≠ .ok i)

/-- Words of the spec's encoding vectors V-E11, V-E14, V-E20, V-E28, V-D3, V-D4, V-D10 (95_test_vectors.md). -/
def Obligations.SampleWordsDecode : Prop :=
  decode 0x57FF#16 = .ok (.movl 7 0xFF#8) ∧
  decode 0x6EFE#16 = .ok (.str 0xFE#8 6) ∧
  decode 0x9C80#16 = .ok (.swap 4) ∧
  decode 0xDDC0#16 = .ok (.addr 5 6) ∧
  decode 0x1234#16 = .ok .retc ∧
  decode 0x1F42#16 = .ok (.call 0x42#8) ∧
  decode 0x8340#16 = .error (.reserved 0b10000#5 3 2)

/-- The assembler accepts the statements of the usage lines with operands in range, and every instruction can be
written (30_encoding.md R64); an operand out of range is rejected (R66). That operands of another kind or number
than the usage line shows are rejected too is the MODEL's choice, not the spec's (log 23). -/
def Obligations.AssemblerAcceptsExactlyUsageLines : Prop :=
  (∀ st : Statement, (∃ i, assemble st = .ok i) ↔ st.wellFormed = true) ∧
  (∀ i : Instr, ∃ st, assemble st = .ok i)

/-- The virtual instructions and their encodings (30_encoding.md R65). -/
def Obligations.VirtualInstructionsAreTheirExpansions : Prop :=
  ∀ (n : Nat) (h : n < 8),
    (assemble ⟨.inc, [.reg n]⟩ = .ok (.addl ⟨n, h⟩ 0x01#8) ∧
      assemble ⟨.inc, [.reg n]⟩ = assemble ⟨.addl, [.reg n, .lit 1]⟩ ∧
      encode (.addl ⟨n, h⟩ 0x01#8) = BitVec.ofNat 16 (0xD001 + (n <<< 8))) ∧
    (assemble ⟨.dec, [.reg n]⟩ = .ok (.subl ⟨n, h⟩ 0x01#8) ∧
      assemble ⟨.dec, [.reg n]⟩ = assemble ⟨.subl, [.reg n, .lit 1]⟩ ∧
      encode (.subl ⟨n, h⟩ 0x01#8) = BitVec.ofNat 16 (0xE001 + (n <<< 8))) ∧
    (assemble ⟨.clr, [.reg n]⟩ = .ok (.movl ⟨n, h⟩ 0x00#8) ∧
      assemble ⟨.clr, [.reg n]⟩ = assemble ⟨.movl, [.reg n, .lit 0]⟩ ∧
      encode (.movl ⟨n, h⟩ 0x00#8) = BitVec.ofNat 16 (0x5000 + (n <<< 8)))

/-! ## The step -/

/-- A step at which no interrupt is accepted runs the instruction that the word at `pc` decodes to, in the state
whose schedule has moved on by one boundary (00_scope.md R8, 60_exceptions.md R164, R165). -/
def Obligations.StepRunsDecodedInstruction : Prop :=
  ∀ (s : State) (w : InstrWord) (i : Instr), ¬ Spec.Accepted s → s.program.word s.pc = some w →
    decode w = .ok i → step s = exec i (Spec.pastBoundary s)

/-- The next step after a word is placed where the step fetches runs it (the model's own loading, log 10). -/
def Obligations.LoadedWordRunsNext : Prop :=
  ∀ (s : State) (nbits w : Nat) (i : Instr), decodeTableWord nbits w = some i →
    step (s.withFetchWord nbits w) = exec i (Spec.pastBoundary (s.withFetchWord nbits w))

/-- Interrupt entry: what is saved, what changes, where control goes, and the fault on a full stack
(60_exceptions.md R166, R167). That the schedule moves on by one boundary is seen in the model's own fields
`irqLine` and `boundary` (log 8). -/
def Obligations.InterruptEntry : Prop :=
  ∀ s : State, Spec.Accepted s →
    (s.stack.length ≠ s.cfg.stackDepth →
      step s = .next { s with
        irqLine := s.irqLine.tail
        boundary := s.boundary + 1
        stack := .irq s.pc (if s.cfg.irqSavesFlags then some s.flags else none) :: s.stack
        inService := true
        pc := s.cfg.irqVector }) ∧
    (s.stack.length = s.cfg.stackDepth → step s = .fault (.stackOverflow s.pc))

/-- When an interrupt is accepted: never without IRQ_PRESENT, without a request, while one is in service, or once
a fault is recorded, and otherwise always, at every boundary, the first after reset like any other
(60_exceptions.md R165). A fault is recorded by the monitor of 10_state.md R28. How the state holds the schedule
is the model's own: `requestAt 0` is the request at this boundary (log 8). -/
def Obligations.InterruptAcceptedExactlyWhen : Prop :=
  (∀ s t : State, step s = .next t → s.inService = false →
    (t.inService = true ↔ (s.cfg.irqPresent = true ∧ s.requestAt 0 = true))) ∧
  (∀ (s : State) (w : InstrWord) (i : Instr), s.inService = true → s.program.word s.pc = some w →
    decode w = .ok i → step s = exec i (Spec.pastBoundary s)) ∧
  (∀ (m : Monitor) (f : Fault), m.status = some f → m.step = m) ∧
  (∀ (c : Config) (p : Program) (cells : Memory) (u : Unspecified) (line : List Bool),
    c.irqPresent = true → 1 ≤ c.stackDepth →
    ∃ t, step { State.launch c p cells u with irqLine := true :: line } = .next t ∧ t.inService = true)

/-! ## Results: jump family -/

/-- NOP (40_jump.md R70). -/
def Obligations.NopOnlyAdvances : Prop :=
  encode .nop = 0x0000#16 ∧
  (∀ w : InstrWord, w.extractLsb' 11 5 = 0b00000#5 → decode w = .ok .nop) ∧
  (∀ s : State, s.pc ≠ 0xFF#8 → exec .nop s = .next { s with pc := s.pc + 1#8 }) ∧
  (∀ s : State, s.pc = 0xFF#8 → exec .nop s = .fault (.pcOverrun s.pc))

/-- JMP (40_jump.md R75). -/
def Obligations.JmpGoesToItsAddress : Prop :=
  (∀ a : Addr, encode (.jmp a) = 0x2000#16 ||| a.setWidth 16) ∧
  (∀ w : InstrWord, w.extractLsb' 11 5 = 0b00100#5 → decode w = .ok (.jmp (w.extractLsb' 0 8))) ∧
  (∀ (a : Addr) (s : State), exec (.jmp a) s = .next { s with pc := a }) ∧
  (∀ s : State, exec (.jmp s.pc) s = .next s)

/-- CALL (40_jump.md R73). The return address `pc + 1` R73 marks as general knowledge and decision D16 (log 18). -/
def Obligations.CallPushesReturnAddress : Prop :=
  (∀ a : Addr, encode (.call a) = 0x1800#16 ||| a.setWidth 16) ∧
  (∀ w : InstrWord, w.extractLsb' 11 5 = 0b00011#5 → decode w = .ok (.call (w.extractLsb' 0 8))) ∧
  (∀ (a : Addr) (s : State),
    (s.pc ≠ 0xFF#8 → s.stack.length ≠ s.cfg.stackDepth →
      exec (.call a) s = .next { s with stack := .call (s.pc + 1#8) :: s.stack, pc := a }) ∧
    (s.pc = 0xFF#8 → exec (.call a) s = .fault (.pcOverrun s.pc)) ∧
    (s.pc ≠ 0xFF#8 → s.stack.length = s.cfg.stackDepth → exec (.call a) s = .fault (.stackOverflow s.pc)))

/-- RETC (40_jump.md R74), with the opcode the spec decides for it (D8, log 12). -/
def Obligations.RetcPopsReturnAddress : Prop :=
  encode .retc = 0x1000#16 ∧
  (∀ w : InstrWord, w.extractLsb' 11 5 = 0b00010#5 → decode w = .ok .retc) ∧
  (∀ (s : State) (a : Addr) (rest : List Entry), s.stack = .call a :: rest →
    exec .retc s = .next { s with stack := rest, pc := a }) ∧
  (∀ s : State, s.stack = [] → exec .retc s = .fault (.stackUnderflow s.pc)) ∧
  (∀ (s : State) (v : Byte) (rest : List Entry), s.stack = .data v :: rest →
    exec .retc s = .fault (.stackKindMismatch s.pc .call .data)) ∧
  (∀ (s : State) (a : Addr) (f : Option Flags) (rest : List Entry), s.stack = .irq a f :: rest →
    exec .retc s = .fault (.stackKindMismatch s.pc .call .irq))

/-- RETI (40_jump.md R72, 60_exceptions.md R168). Every flag of the model holds a value, so the saved flags are five
bits (log 3). -/
def Obligations.RetiReturnsFromInterrupt : Prop :=
  (∀ (s : State) (a : Addr) (f : Option Flags) (rest : List Entry), s.stack = .irq a f :: rest →
    (s.cfg.irqSavesFlags = false →
      exec .reti s = .next { s with stack := rest, inService := false, pc := a }) ∧
    (∀ g, s.cfg.irqSavesFlags = true → f = some g →
      exec .reti s = .next { s with stack := rest, flags := g, inService := false, pc := a })) ∧
  (∀ s : State, s.stack = [] → exec .reti s = .fault (.stackUnderflow s.pc)) ∧
  (∀ (s : State) (v : Byte) (rest : List Entry), s.stack = .data v :: rest →
    exec .reti s = .fault (.stackKindMismatch s.pc .irq .data)) ∧
  (∀ (s : State) (a : Addr) (rest : List Entry), s.stack = .call a :: rest →
    exec .reti s = .fault (.stackKindMismatch s.pc .irq .call))

/-- JZ, JC, JE, JG and JS (40_jump.md R76 to R80). Every flag of the model holds a value (log 3). -/
def Obligations.ConditionalJumps : Prop :=
  ∀ (a : Addr) (s : State),
    Spec.JumpsIf (.jz a) s.flags.zf a s ∧
    Spec.JumpsIf (.jc a) s.flags.cf a s ∧
    Spec.JumpsIf (.je a) s.flags.ef a s ∧
    Spec.JumpsIf (.jg a) s.flags.gf a s ∧
    Spec.JumpsIf (.js a) s.flags.sf a s

/-! ## Results: register and memory family -/

/-- MOVL (41_register_memory.md R90). -/
def Obligations.MovlLoadsLiteral : Prop :=
  (∀ (rd : Reg) (l : Byte), encode (.movl rd l) = 0x5000#16 ||| (BitVec.ofNat 16 rd <<< 8) ||| l.setWidth 16) ∧
  (∀ w : InstrWord, w.extractLsb' 11 5 = 0b01010#5 →
    ∃ rd : Reg, decode w = .ok (.movl rd (w.extractLsb' 0 8)) ∧ rd.val = (w.extractLsb' 8 3).toNat) ∧
  (∀ (rd : Reg) (l : Byte) (s : State), s.pc ≠ 0xFF#8 → Spec.Writes (.movl rd l) s rd l s.flags) ∧
  (∀ (rd : Reg) (l : Byte) (s : State), s.pc = 0xFF#8 → exec (.movl rd l) s = .fault (.pcOverrun s.pc)) ∧
  (∀ n : Nat, assemble ⟨.clr, [.reg n]⟩ = assemble ⟨.movl, [.reg n, .lit 0]⟩)

/-- MOVR (41_register_memory.md R91). Every register of the model holds a value (log 2). -/
def Obligations.MovrCopiesRegister : Prop :=
  ∀ (rd rs : Reg) (s : State),
    (s.pc ≠ 0xFF#8 → Spec.Writes (.movr rd rs) s rd (s.reg rs) s.flags) ∧
    (s.pc = 0xFF#8 → exec (.movr rd rs) s = .fault (.pcOverrun s.pc))

/-- LDR from plain memory, from a device and from nothing (41_register_memory.md R92, 20_memory.md R30). What a
device answers R30 leaves to the environment; that it is `Config.deviceInput` at the count `deviceReads`, which
then grows by one, is the MODEL's form of that free value (log 6). -/
def Obligations.LdrReadsCell : Prop :=
  (∀ (rd : Reg) (a : Addr), encode (.ldr rd a) = 0x6000#16 ||| (BitVec.ofNat 16 rd <<< 8) ||| a.setWidth 16) ∧
  (∀ w : InstrWord, w.extractLsb' 11 5 = 0b01100#5 →
    ∃ rd : Reg, decode w = .ok (.ldr rd (w.extractLsb' 0 8)) ∧ rd.val = (w.extractLsb' 8 3).toNat) ∧
  (∀ (rd : Reg) (a : Addr) (s : State),
    (∀ v, s.kindAt a = .ram → s.data.read a = some v → s.pc ≠ 0xFF#8 →
      Spec.Writes (.ldr rd a) s rd v s.flags) ∧
    (s.kindAt a = .device → s.pc ≠ 0xFF#8 →
      exec (.ldr rd a) s = .next { s with
        regs := s.regs.set rd (Config.deviceInput s.deviceReads a)
        deviceReads := s.deviceReads + 1
        pc := s.pc + 1#8 }) ∧
    (s.kindAt a = .absent → exec (.ldr rd a) s = .fault (.unmappedData s.pc a)) ∧
    (s.kindAt a = .ram → s.data.read a = none → exec (.ldr rd a) s = .fault (.unwrittenRead s.pc a)) ∧
    (∀ v, s.kindAt a = .ram → s.data.read a = some v → s.pc = 0xFF#8 →
      exec (.ldr rd a) s = .fault (.pcOverrun s.pc)) ∧
    (s.kindAt a = .device → s.pc = 0xFF#8 → exec (.ldr rd a) s = .fault (.pcOverrun s.pc)))

/-- STR to plain memory, to a device and to nothing, with the bytes it leaves alone (41_register_memory.md R93,
20_memory.md R31). That the value handed to a device is put in front of the record `deviceWrites` is the MODEL's own
(log 7); R31 says only that it is handed to the environment. Every register of the model holds a value (log 2). -/
def Obligations.StrWritesCell : Prop :=
  ∀ (a : Addr) (rs : Reg) (s : State),
    (s.kindAt a = .ram → s.pc ≠ 0xFF#8 →
      ∃ m : Memory, exec (.str a rs) s = .next { s with data := m, pc := s.pc + 1#8 } ∧
        m.read a = some (s.reg rs) ∧ ∀ b : Addr, b ≠ a → m.read b = s.data.read b) ∧
    (s.kindAt a = .device → s.pc ≠ 0xFF#8 →
      exec (.str a rs) s = .next { s with
        deviceWrites := (a.toNat, s.reg rs) :: s.deviceWrites, pc := s.pc + 1#8 }) ∧
    (s.kindAt a = .absent → exec (.str a rs) s = .fault (.unmappedData s.pc a)) ∧
    (s.kindAt a ≠ .absent → s.pc = 0xFF#8 → exec (.str a rs) s = .fault (.pcOverrun s.pc))

/-- PUSH (41_register_memory.md R94). Every register of the model holds a value (log 2). -/
def Obligations.PushStacksRegister : Prop :=
  ∀ (rs : Reg) (s : State),
    (s.stack.length ≠ s.cfg.stackDepth → s.pc ≠ 0xFF#8 →
      exec (.push rs) s = .next { s with stack := .data (s.reg rs) :: s.stack, pc := s.pc + 1#8 }) ∧
    (s.stack.length = s.cfg.stackDepth → exec (.push rs) s = .fault (.stackOverflow s.pc)) ∧
    (s.stack.length ≠ s.cfg.stackDepth → s.pc = 0xFF#8 → exec (.push rs) s = .fault (.pcOverrun s.pc))

/-- POP (41_register_memory.md R95). -/
def Obligations.PopUnstacksRegister : Prop :=
  (∀ rd : Reg, encode (.pop rd) = 0x7800#16 ||| (BitVec.ofNat 16 rd <<< 8)) ∧
  (∀ w : InstrWord, w.extractLsb' 11 5 = 0b01111#5 →
    ∃ rd : Reg, decode w = .ok (.pop rd) ∧ rd.val = (w.extractLsb' 8 3).toNat) ∧
  (∀ (rd : Reg) (s : State) (v : Byte) (rest : List Entry), s.stack = .data v :: rest →
    (s.pc ≠ 0xFF#8 →
      exec (.pop rd) s = .next { s with regs := s.regs.set rd v, stack := rest, pc := s.pc + 1#8 }) ∧
    (s.pc = 0xFF#8 → exec (.pop rd) s = .fault (.pcOverrun s.pc))) ∧
  (∀ (rd : Reg) (s : State), s.stack = [] → exec (.pop rd) s = .fault (.stackUnderflow s.pc)) ∧
  (∀ (rd : Reg) (s : State) (a : Addr) (rest : List Entry), s.stack = .call a :: rest →
    exec (.pop rd) s = .fault (.stackKindMismatch s.pc .data .call)) ∧
  (∀ (rd : Reg) (s : State) (a : Addr) (f : Option Flags) (rest : List Entry), s.stack = .irq a f :: rest →
    exec (.pop rd) s = .fault (.stackKindMismatch s.pc .data .irq)) ∧
  (∀ (ra rb : Reg) (s t : State), exec (.push ra) s = .next t → t.pc ≠ 0xFF#8 →
    exec (.pop rb) t = .next { t with regs := t.regs.set rb (s.reg ra), stack := s.stack, pc := t.pc + 1#8 })

/-! ## Results: ALU -/

/-- NOT and SWAP (42_alu_single.md R110, R114). When ZF is set R111 marks as general knowledge and decision D12
(log 17). Every register of the model holds a value (log 2). -/
def Obligations.NotAndSwapResults : Prop :=
  ∀ (r : Reg) (s : State), s.pc ≠ 0xFF#8 →
    (∃ v : Byte, v.toNat = 255 - (s.reg r).toNat ∧
      Spec.Writes (.not r) s r v { s.flags with zf := decide (v = 0x00#8) }) ∧
    (∃ v : Byte, v.extractLsb' 4 4 = (s.reg r).extractLsb' 0 4 ∧ v.extractLsb' 0 4 = (s.reg r).extractLsb' 4 4 ∧
      Spec.Writes (.swap r) s r v { s.flags with zf := decide (v = 0x00#8) })

/-- RR and RL under every SHIFT_FILL (42_alu_single.md R112, R113). That CF is the bit shifted out the rules mark as
general knowledge and decision D12 (log 17, log 21). Every register and flag of the model holds a value (log 2,
log 3). -/
def Obligations.ShiftResults : Prop :=
  ∀ (r : Reg) (s : State), s.pc ≠ 0xFF#8 →
    (∃ v : Byte, (∀ i, i < 7 → v.getLsbD i = (s.reg r).getLsbD (i + 1)) ∧
      v.getLsbD 7 = Spec.entering s ((s.reg r).getLsbD 0) ∧
      Spec.Writes (.rr r) s r v { s.flags with cf := (s.reg r).getLsbD 0, zf := decide (v = 0x00#8) }) ∧
    (∃ v : Byte, (∀ i, 1 ≤ i → i < 8 → v.getLsbD i = (s.reg r).getLsbD (i - 1)) ∧
      v.getLsbD 0 = Spec.entering s ((s.reg r).getLsbD 7) ∧
      Spec.Writes (.rl r) s r v { s.flags with cf := (s.reg r).getLsbD 7, zf := decide (v = 0x00#8) })

/-- The logic law, for ANDL, ANDR, ORL, ORR, XORL and XORR (43_alu_two.md R134). The definition of ZF
R134 marks as general knowledge and decision D12 (log 17). Every register of the model holds a value (log 2). -/
def Obligations.LogicLaw : Prop :=
  ∀ (rd rs : Reg) (l : Byte) (s : State), s.pc ≠ 0xFF#8 →
    (∃ v, Spec.Bitwise and (s.reg rd) l v ∧
      Spec.Writes (.andl rd l) s rd v { s.flags with zf := decide (v = 0x00#8) }) ∧
    (∃ v, Spec.Bitwise and (s.reg rd) (s.reg rs) v ∧
      Spec.Writes (.andr rd rs) s rd v { s.flags with zf := decide (v = 0x00#8) }) ∧
    (∃ v, Spec.Bitwise or (s.reg rd) l v ∧
      Spec.Writes (.orl rd l) s rd v { s.flags with zf := decide (v = 0x00#8) }) ∧
    (∃ v, Spec.Bitwise or (s.reg rd) (s.reg rs) v ∧
      Spec.Writes (.orr rd rs) s rd v { s.flags with zf := decide (v = 0x00#8) }) ∧
    (∃ v, Spec.Bitwise xor (s.reg rd) l v ∧
      Spec.Writes (.xorl rd l) s rd v { s.flags with zf := decide (v = 0x00#8) }) ∧
    (∃ v, Spec.Bitwise xor (s.reg rd) (s.reg rs) v ∧
      Spec.Writes (.xorr rd rs) s rd v { s.flags with zf := decide (v = 0x00#8) })

/-- The addition law, for ADDL, ADDR and the virtual INC, Rd = Rs included (43_alu_two.md R131).
That CF is the carry out of bit 7 and ZF reports the wrapped result, R131 marks as general knowledge and as the
spec's own decision D12 (log 17). Every register of the model holds a value (log 2). -/
def Obligations.AdditionLaw : Prop :=
  ∀ (rd rs : Reg) (l : Byte) (s : State), s.pc ≠ 0xFF#8 →
    Spec.Adds (.addl rd l) s rd (s.reg rd) l ∧
    Spec.Adds (.addr rd rs) s rd (s.reg rd) (s.reg rs) ∧
    ∃ i, assemble ⟨.inc, [.reg rd.val]⟩ = .ok i ∧ Spec.Adds i s rd (s.reg rd) 0x01#8

/-- The subtraction law, for SUBL, SUBR and the virtual DEC, Rd = Rs included, in both polarities of CF
(43_alu_two.md R132). The direction of the subtraction R132 derives from DEC, and that CF reports the borrow it
marks as general knowledge (log 17). Every register of the model holds a value (log 2). -/
def Obligations.SubtractionLaw : Prop :=
  ∀ (rd rs : Reg) (l : Byte) (s : State), s.pc ≠ 0xFF#8 →
    Spec.Subtracts (.subl rd l) s rd (s.reg rd) l ∧
    Spec.Subtracts (.subr rd rs) s rd (s.reg rd) (s.reg rs) ∧
    ∃ i, assemble ⟨.dec, [.reg rd.val]⟩ = .ok i ∧ Spec.Subtracts i s rd (s.reg rd) 0x01#8

/-- The comparison law, for CMPL and CMPR, unsigned and signed (43_alu_two.md R133). Which of EF, GF and SF goes
with which relation, and that Rd is the left operand, R133 marks as the spec's own reading and as general
knowledge (decision D15, log 17). Every register of the model holds a value (log 2). -/
def Obligations.ComparisonLaw : Prop :=
  ∀ (rd rs : Reg) (l : Byte) (s : State), s.pc ≠ 0xFF#8 →
    Spec.Compares (.cmpl rd l) s (s.reg rd) l ∧
    Spec.Compares (.cmpr rd rs) s (s.reg rd) (s.reg rs)

/-- CLR is MOVL with 0: the register is 0, no flag is affected, ZF among them (42_alu_single.md R117). -/
def Obligations.ClrClearsRegister : Prop :=
  ∀ (n : Nat) (h : n < 8), ∃ i, assemble ⟨.clr, [.reg n]⟩ = .ok i ∧
    encode i = 0x5000#16 ||| (BitVec.ofNat 16 n <<< 8) ∧
    (∀ s : State, s.pc ≠ 0xFF#8 → Spec.Writes i s ⟨n, h⟩ 0x00#8 s.flags) ∧
    (∀ s : State, s.pc = 0xFF#8 → exec i s = .fault (.pcOverrun s.pc))

/-! ## The stack and the program counter -/

/-- `Push` and `Pop` (10_state.md R25, R26). -/
def Obligations.PushAndPopPrimitives : Prop :=
  (∀ (e : Entry) (s : State),
    (s.stack.length = s.cfg.stackDepth → pushEntry e s = .error (.stackOverflow s.pc)) ∧
    (s.stack.length ≠ s.cfg.stackDepth → pushEntry e s = .ok { s with stack := e :: s.stack })) ∧
  (∀ s : State, s.stack = [] →
    popData s = .error (.stackUnderflow s.pc) ∧ popCall s = .error (.stackUnderflow s.pc) ∧
    popIrq s = .error (.stackUnderflow s.pc)) ∧
  (∀ (s : State) (rest : List Entry) (v : Byte), s.stack = .data v :: rest →
    popData s = .ok (v, { s with stack := rest }) ∧
    popCall s = .error (.stackKindMismatch s.pc .call .data) ∧
    popIrq s = .error (.stackKindMismatch s.pc .irq .data)) ∧
  (∀ (s : State) (rest : List Entry) (a : Addr), s.stack = .call a :: rest →
    popData s = .error (.stackKindMismatch s.pc .data .call) ∧
    popCall s = .ok (a, { s with stack := rest }) ∧
    popIrq s = .error (.stackKindMismatch s.pc .irq .call)) ∧
  (∀ (s : State) (rest : List Entry) (a : Addr) (f : Option Flags), s.stack = .irq a f :: rest →
    popData s = .error (.stackKindMismatch s.pc .data .irq) ∧
    popCall s = .error (.stackKindMismatch s.pc .call .irq) ∧
    popIrq s = .ok ((a, f), { s with stack := rest }))

/-- The sequential advance faults at 0xFF instead of wrapping, for every instruction that advances, for an untaken
conditional jump and for CALL; a jump to 0xFF is legal (10_state.md R15). -/
def Obligations.SequentialAdvanceNeverWraps : Prop :=
  (∀ (i : Instr) (s t : State), Spec.sequential i = true → exec i { s with pc := 0x00#8 } = .next t →
    exec i { s with pc := 0xFF#8 } = .fault (.pcOverrun 0xFF#8)) ∧
  (∀ (a : Addr) (s : State), s.pc = 0xFF#8 →
    (s.flags.zf = false → exec (.jz a) s = .fault (.pcOverrun 0xFF#8)) ∧
    (s.flags.cf = false → exec (.jc a) s = .fault (.pcOverrun 0xFF#8)) ∧
    (s.flags.ef = false → exec (.je a) s = .fault (.pcOverrun 0xFF#8)) ∧
    (s.flags.gf = false → exec (.jg a) s = .fault (.pcOverrun 0xFF#8)) ∧
    (s.flags.sf = false → exec (.js a) s = .fault (.pcOverrun 0xFF#8)) ∧
    exec (.call a) s = .fault (.pcOverrun 0xFF#8)) ∧
  (∀ s : State, exec (.jmp 0xFF#8) s = .next { s with pc := 0xFF#8 })

/-- How each instruction and interrupt entry change `pc`; there is no delay slot: the next step executes the
instruction at the new `pc` (10_state.md R14), in the state whose schedule, held in the model's own fields (log 8),
has moved on. -/
def Obligations.ProgramCounterTable : Prop :=
  (∀ (i : Instr) (s t : State), exec i s = .next t → Spec.nextPc i s t.pc) ∧
  (∀ s t : State, enterInterrupt s = .next t → t.pc = s.cfg.irqVector) ∧
  (∀ (i : Instr) (s t : State) (w : InstrWord) (j : Instr), exec i s = .next t → ¬ Spec.Accepted t →
    t.program.word t.pc = some w → decode w = .ok j → step t = exec j (Spec.pastBoundary t))

/-! ## Frames -/

/-- Every register but the destination of the instruction is unchanged (10_state.md, the table under R11). -/
def Obligations.OnlyTheDestinationRegisterChanges : Prop :=
  ∀ (i : Instr) (s t : State), exec i s = .next t →
    ∀ r : Reg, Spec.destination i ≠ some r → t.reg r = s.reg r

/-- Every flag but those the instruction's row names is unchanged (10_state.md R17). -/
def Obligations.OnlyTheNamedFlagsChange : Prop :=
  ∀ (i : Instr) (s t : State), exec i s = .next t →
    ∀ n : FlagName, n ∉ Spec.flagsWritten s.cfg.irqSavesFlags i → t.flags.get n = s.flags.get n

/-- What each instruction leaves alone beside registers, flags and `pc`: the instruction space, the parameters and
the schedule (the model's own fields, log 8) always; the stack, in_service, the data space and the device's inputs
and outputs unless it is an instruction that reaches them (10_state.md R23, R27). -/
def Obligations.StoresChangeOnlyByTheirWriters : Prop :=
  ∀ (i : Instr) (s t : State), exec i s = .next t →
    t.program = s.program ∧ t.cfg = s.cfg ∧
    t.irqLine = s.irqLine ∧ t.irqAfter = s.irqAfter ∧ t.boundary = s.boundary ∧
    (Spec.usesStack i = false → t.stack = s.stack) ∧
    (i ≠ .reti → t.inService = s.inService) ∧
    ((∀ a r, i ≠ .str a r) → t.data = s.data ∧ t.deviceWrites = s.deviceWrites) ∧
    ((∀ r a, i ≠ .ldr r a) → t.deviceReads = s.deviceReads)

/-- Every data cell but the one STR names reads as before, whatever the instruction (10_state.md R23,
41_register_memory.md R93). -/
def Obligations.OtherCellsReadAsBefore : Prop :=
  ∀ (i : Instr) (s t : State), exec i s = .next t →
    ∀ a : Addr, Spec.storeAddress i ≠ some a → t.data.read a = s.data.read a

/-- No step, interrupt entry included, changes the instruction space or a parameter (10_state.md R21,
20_memory.md R40). -/
def Obligations.StepKeepsProgramAndParameters : Prop :=
  ∀ s t : State, step s = .next t → t.program = s.program ∧ t.cfg = s.cfg

/-- No instruction and no step is refused: each goes on or raises one of the spec's faults (60_exceptions.md R161,
30_encoding.md R62). -/
def Obligations.NothingIsRefused : Prop :=
  (∀ (i : Instr) (s : State) (r : Refusal), exec i s ≠ .refused r) ∧
  (∀ (s : State) (r : Refusal), step s ≠ .refused r)

/-! ## What an instruction can read -/

/-- No instruction reads the instruction space as data: what it does is the same over any program
(10_state.md R21, R23). -/
def Obligations.InstructionSpaceIsInvisible : Prop :=
  ∀ (i : Instr) (s : State) (p : Program),
    exec i { s with program := p } = Spec.mapNext (fun t => { t with program := p }) (exec i s)

/-- Only LDR reads the data space: any other instruction but STR does the same over any contents, and STR goes on or
faults the same way and stores the same value (10_state.md R23, 20_memory.md R30, R31). -/
def Obligations.DataSpaceIsReadOnlyByLdr : Prop :=
  (∀ (i : Instr) (s : State) (m : Memory), (∀ r a, i ≠ .ldr r a) → (∀ a r, i ≠ .str a r) →
    exec i { s with data := m } = Spec.mapNext (fun t => { t with data := m }) (exec i s)) ∧
  (∀ (a : Addr) (r : Reg) (s : State) (m : Memory),
    exec (.str a r) { s with data := m } =
      Spec.mapNext (fun t => { t with data := if s.kindAt a = .ram then m.write a (s.reg r) else m })
        (exec (.str a r) s))

/-- Which instruction reads which flag: two states that agree on the flags an instruction reads give the same
outcome, and the flags it writes come out equal; the flag a conditional jump reads decides where it goes, and under
SHIFT_FILL = Carry the CF that RR and RL read enters the register (10_state.md R18). -/
def Obligations.OnlyTheListedFlagsAreRead : Prop :=
  (∀ (i : Instr) (s : State) (f : Flags), Inv s →
    (∀ n ∈ Spec.flagsRead s.cfg.shiftFill i, f.get n = s.flags.get n) →
    (∀ t, exec i s = .next t → ∃ g : Flags, exec i { s with flags := f } = .next { t with flags := g } ∧
      ∀ n ∈ Spec.flagsWritten s.cfg.irqSavesFlags i, g.get n = t.flags.get n) ∧
    (∀ e, exec i s = .fault e → exec i { s with flags := f } = .fault e)) ∧
  (∀ (a : Addr) (s : State) (n : FlagName) (i : Instr), s.pc ≠ 0xFF#8 → a ≠ s.pc + 1#8 →
    (i, n) ∈ [(Instr.jz a, FlagName.zf), (.jc a, .cf), (.je a, .ef), (.jg a, .gf), (.js a, .sf)] →
    ∃ t u, exec i { s with flags := Spec.withFlag s.flags n true } = .next t ∧
      exec i { s with flags := Spec.withFlag s.flags n false } = .next u ∧ t.pc ≠ u.pc) ∧
  (∀ (r : Reg) (s : State) (i : Instr), s.pc ≠ 0xFF#8 → s.cfg.shiftFill = .carry → (i = .rr r ∨ i = .rl r) →
    ∃ t u, exec i { s with flags := Spec.withFlag s.flags .cf true } = .next t ∧
      exec i { s with flags := Spec.withFlag s.flags .cf false } = .next u ∧ t.reg r ≠ u.reg r)

/-! ## Invariants -/

/-- Every step keeps the machine's invariant: canonical memories, the stack within its depth, interrupt frames as
configured, one frame exactly while an interrupt is in service, none without interrupts (10_state.md R22, R24, R25,
R27; 60_exceptions.md R163, R169). -/
def Obligations.StepKeepsInvariant : Prop :=
  ∀ s t : State, Inv s → step s = .next t → Inv t

/-- The invariant holds at reset, in every launch state over canonical memories and after every reset event
(70_reset_and_hazards.md R181,
R182). -/
def Obligations.LaunchStatesSatisfyInvariant : Prop :=
  Inv State.reset ∧
  (∀ (c : Config) (p : Program) (cells : Memory) (u : Unspecified), p.wf = true → cells.wf = true →
    Inv (State.launch c p cells u)) ∧
  (∀ (s : State) (u : Unspecified), s.program.wf = true → Inv (resetEvent u s))

/-- Where interrupts do not exist, RETI always faults (40_jump.md R72, 60_exceptions.md R163). -/
def Obligations.RetiFaultsWithoutInterrupts : Prop :=
  ∀ s : State, Inv s → s.cfg.irqPresent = false →
    exec .reti s = .fault (.stackUnderflow s.pc) ∨
    ∃ k, exec .reti s = .fault (.stackKindMismatch s.pc .irq k)

/-- The in-service bit: set by interrupt entry, cleared by RETI, read by no instruction, 0 after reset, never set
where interrupts do not exist, and no interrupt is accepted while it is 1 (10_state.md R27). `pastBoundary` moves
the schedule on, in the model's own fields (log 8). -/
def Obligations.InServiceBit : Prop :=
  (∀ s t : State, enterInterrupt s = .next t → t.inService = true) ∧
  (∀ s t : State, exec .reti s = .next t → t.inService = false) ∧
  (∀ (i : Instr) (s : State) (b : Bool), i ≠ .reti →
    exec i { s with inService := b } = Spec.mapNext (fun t => { t with inService := b }) (exec i s)) ∧
  (∀ (s : State) (b : Bool), exec .reti { s with inService := b } = exec .reti s) ∧
  (∀ s t : State, s.inService = true → step s = .next t →
    ∃ w i, s.program.word s.pc = some w ∧ decode w = .ok i ∧ exec i (Spec.pastBoundary s) = .next t) ∧
  State.reset.inService = false ∧
  (∀ s t : State, s.cfg.irqPresent = false → s.inService = false → step s = .next t → t.inService = false)

/-! ## Runs -/

/-- A LDR answers the value of the most recent STR to its address, however many steps, interrupts among them, lie
between them (20_memory.md R38). -/
def Obligations.LoadReturnsMostRecentStore : Prop :=
  ∀ (k : Nat) (a : Addr) (rs rd : Reg) (s t u : State),
    s.kindAt a = .ram → exec (.str a rs) s = .next t → Spec.noStoreTo a k t →
    Host.Core.run core k t = .next u → u.pc ≠ 0xFF#8 →
    exec (.ldr rd a) u = .next { u with regs := u.regs.set rd (s.reg rs), pc := u.pc + 1#8 }

/-- After an interrupt, RETI at any later state with the stack as entry left it goes back to the interrupted
instruction, with the flags of the interrupted program if they are saved (60_exceptions.md R167, R168;
40_jump.md R81). -/
def Obligations.InterruptReturnsToInterruptedProgram : Prop :=
  ∀ s : State, Spec.Accepted s → s.stack.length ≠ s.cfg.stackDepth →
    ∃ t, step s = .next t ∧ ∀ u : State, u.stack = t.stack → u.cfg = t.cfg →
      exec .reti u = .next { u with
        stack := s.stack
        flags := if s.cfg.irqSavesFlags then s.flags else u.flags
        inService := false
        pc := s.pc }

/-- After a CALL, RETC at any later state with the stack as the call left it continues after the call
(40_jump.md R73, R74, R81). -/
def Obligations.BalancedSubroutineReturns : Prop :=
  ∀ (a : Addr) (s t u : State), exec (.call a) s = .next t → u.stack = t.stack →
    exec .retc u = .next { u with stack := s.stack, pc := s.pc + 1#8 }

/-- PUSH Ra then POP Rb copies x[Ra] to x[Rb] and leaves the stack, the flags and the other registers as they were
(41_register_memory.md R95, its corner case; 95_test_vectors.md V-Q12). -/
def Obligations.PushThenPopCopies : Prop :=
  ∀ (ra rb : Reg) (s : State), s.pc.toNat + 2 ≤ 255 → s.stack.length ≠ s.cfg.stackDepth →
    Spec.execAll [.push ra, .pop rb] s =
      .next { s with regs := s.regs.set rb (s.reg ra), pc := s.pc + 2#8 }

/-- From the end of a run, in a handler or not, every further step executes the same JMP and leaves the state
unchanged, but for the schedule of the environment, which moves on in the model's own fields (log 8), and the run is
still ended (40_jump.md R82, the spec's decision D23, log 20). -/
def Obligations.EndedRunStays : Prop :=
  ∀ (s : State) (k : Nat), runEnded s →
    Host.Core.run core k s = .next { s with irqLine := s.irqLine.drop k, boundary := s.boundary + k } ∧
    runEnded { s with irqLine := s.irqLine.drop k, boundary := s.boundary + k }

/-- The fault status: a step that faults records the fault and changes nothing, and once a fault is recorded it is
never cleared and no further step is taken (10_state.md R28). -/
def Obligations.RecordedFaultIsFinal : Prop :=
  (∀ (m : Monitor) (t : State), m.status = none → step m.state = .next t → m.step = ⟨t, none⟩) ∧
  (∀ (m : Monitor) (f : Fault), m.status = none → step m.state = .fault f → m.step = ⟨m.state, some f⟩) ∧
  (∀ (m : Monitor) (f : Fault) (k : Nat), m.status = some f → m.steps k = m)

/-- The order of the checks of one instruction, for the faults the model raises (60_exceptions.md R162). -/
def Obligations.FaultOrder : Prop :=
  (∀ s : State, ¬ Spec.Accepted s → s.program.word s.pc = none → step s = .fault (.noInstruction s.pc)) ∧
  (∀ (a : Addr) (rd : Reg) (s : State), s.pc = 0xFF#8 →
    (s.kindAt a = .absent → exec (.ldr rd a) s = .fault (.unmappedData s.pc a) ∧
      exec (.str a rd) s = .fault (.unmappedData s.pc a)) ∧
    (s.kindAt a = .ram → s.data.read a = none → exec (.ldr rd a) s = .fault (.unwrittenRead s.pc a))) ∧
  (∀ (rd : Reg) (s : State), s.pc = 0xFF#8 →
    (s.stack = [] → exec (.pop rd) s = .fault (.stackUnderflow s.pc)) ∧
    (∀ a rest, s.stack = .call a :: rest → exec (.pop rd) s = .fault (.stackKindMismatch s.pc .data .call)) ∧
    (s.stack.length = s.cfg.stackDepth → exec (.push rd) s = .fault (.stackOverflow s.pc))) ∧
  (∀ (a : Addr) (s : State), s.pc = 0xFF#8 → s.stack.length = s.cfg.stackDepth →
    exec (.call a) s = .fault (.pcOverrun s.pc))

/-! ## Equivalences -/

/-- NOT twice and SWAP twice restore every register (95_test_vectors.md V-Q1; 42_alu_single.md R110, R114). -/
def Obligations.NotAndSwapAreInvolutions : Prop :=
  ∀ (r : Reg) (s : State), s.pc.toNat + 2 ≤ 255 →
    (∃ t, Spec.execAll [.not r, .not r] s = .next t ∧ t.regs = s.regs) ∧
    (∃ t, Spec.execAll [.swap r, .swap r] s = .next t ∧ t.regs = s.regs)

/-- NOT is XORL with 0xFF; under SHIFT_FILL = Zero, RL is the register added to itself (95_test_vectors.md V-Q2,
V-Q8; 43_alu_two.md R144, R147). -/
def Obligations.EquivalentInstructions : Prop :=
  (∀ (r : Reg) (s : State), exec (.not r) s = exec (.xorl r 0xFF#8) s) ∧
  (∀ (r : Reg) (s : State), s.cfg.shiftFill = .zero → exec (.rl r) s = exec (.addr r r) s)

/-- Rotations come round: under Rotate, RL then RR and eight RLs restore the register; under Carry, nine RLs restore
the register and CF (95_test_vectors.md V-Q7, V-Q9). -/
def Obligations.RotationsComeRound : Prop :=
  (∀ (r : Reg) (s : State), s.cfg.shiftFill = .rotate → s.pc.toNat + 2 ≤ 255 →
    ∃ t, Spec.execAll [.rl r, .rr r] s = .next t ∧ t.regs = s.regs) ∧
  (∀ (r : Reg) (s : State), s.cfg.shiftFill = .rotate → s.pc.toNat + 8 ≤ 255 →
    ∃ t, Spec.execAll (List.replicate 8 (.rl r)) s = .next t ∧ t.regs = s.regs) ∧
  (∀ (r : Reg) (s : State), s.cfg.shiftFill = .carry → s.pc.toNat + 9 ≤ 255 →
    ∃ t, Spec.execAll (List.replicate 9 (.rl r)) s = .next t ∧ t.regs = s.regs ∧ t.flags.cf = s.flags.cf)

/-! ## Reset -/

/-- What reset sets and what it leaves untouched (70_reset_and_hazards.md R180, R181; 10_state.md R29), and the
launch state (R182), whatever the registers and flags hold. -/
def Obligations.ResetAndLaunch : Prop :=
  (∀ (s : State) (u : Unspecified),
    (resetEvent u s).pc = s.cfg.resetPc ∧ (resetEvent u s).stack = [] ∧ (resetEvent u s).inService = false ∧
    (resetEvent u s).program = s.program ∧ (resetEvent u s).cfg = s.cfg ∧
    ∀ a : Addr, (resetEvent u s).data.read a = none) ∧
  (∀ (c : Config) (p : Program) (cells : Memory) (u : Unspecified),
    (State.launch c p cells u).pc = c.resetPc ∧ (State.launch c p cells u).stack = [] ∧
    (State.launch c p cells u).inService = false ∧ (State.launch c p cells u).program = p ∧
    (State.launch c p cells u).data = cells ∧ (State.launch c p cells u).cfg = c) ∧
  State.reset.pc = 0x00#8 ∧ State.reset.stack = [] ∧ State.reset.inService = false ∧
  State.reset.cfg.irqPresent = false ∧ ∀ a : Addr, State.reset.data.read a = none

/-- The MODEL's choice, not the spec's, which states no value: registers and flags are 0 at `State.reset` (log 2,
log 3; 10_state.md R12, R19 leave them without a value). -/
def Obligations.ModelChoosesZeroAtReset : Prop :=
  (∀ r : Reg, State.reset.reg r = 0x00#8) ∧ (∀ n : FlagName, State.reset.flags.get n = false)

/-! ## Starvation -/

/-- After RETI an interrupt can be accepted at the very next boundary; so under the schedule that requests at
every boundary the main program makes no progress: whenever a run from it is back outside the handler, `pc` and
the stack are those it started with and the next interrupt is accepted (60_exceptions.md R168; 95_test_vectors.md,
program P4, schedule 5). How the state holds the schedule is the model's own (log 8). -/
def Obligations.EndlessRequestsStarveTheProgram : Prop :=
  (∀ s t : State, exec .reti s = .next t → s.cfg.irqPresent = true → s.requestAt 0 = true → Spec.Accepted t) ∧
  (∀ (k : Nat) (s t : State), s.cfg.irqPresent = true → s.inService = false → (∀ j, s.requestAt j = true) →
    Host.Core.run core k s = .next t → t.inService = false →
    t.pc = s.pc ∧ t.stack = s.stack ∧ Spec.Accepted t)
end

