-- ==== Sys2Proof/Laws/Cells.lean ====
section
/-! SUPPORT. The laws of the two memories: a read after a write, and the canonical form. -/

namespace Sys2Proof.Machine

variable {α : Type}

@[simp] theorem cellAt_putCell_self (m : List (Nat × α)) (a : Nat) (v : α) :
    cellAt (putCell m a v) a = some v := by
  induction m with
  | nil => simp [putCell, cellAt]
  | cons p rest ih =>
    obtain ⟨b, u⟩ := p
    by_cases h1 : a < b
    · simp [putCell, cellAt, h1]
    · by_cases h2 : a = b
      · simp [putCell, cellAt, h2]
      · simp [putCell, cellAt, h1, h2, ih]

theorem cellAt_putCell_of_ne (m : List (Nat × α)) {a c : Nat} (v : α) (h : c ≠ a) :
    cellAt (putCell m a v) c = cellAt m c := by
  induction m with
  | nil => simp [putCell, cellAt, h]
  | cons p rest ih =>
    obtain ⟨b, u⟩ := p
    by_cases h1 : a < b
    · simp [putCell, cellAt, h1, h]
    · by_cases h2 : a = b
      · subst h2; simp [putCell, cellAt, h]
      · simp [putCell, cellAt, h1, h2, ih]

/-- Every key of the list after a write is the written one or was there. -/
theorem mem_putCell {m : List (Nat × α)} {a : Nat} {v : α} {p : Nat × α} (h : p ∈ putCell m a v) :
    p = (a, v) ∨ p ∈ m := by
  induction m with
  | nil => simpa [putCell] using h
  | cons q rest ih =>
    obtain ⟨b, u⟩ := q
    by_cases h1 : a < b
    · simpa [putCell, h1] using h
    · by_cases h2 : a = b
      · subst h2
        simp only [putCell, lt_irrefl, if_true, if_false, List.mem_cons] at h ⊢
        tauto
      · simp only [putCell, h1, h2, if_false, List.mem_cons] at h ⊢
        rcases h with h | h
        · exact .inr (.inl h)
        · rcases ih h with h | h
          · exact .inl h
          · exact .inr (.inr h)

/-- Writing keeps the canonical form. -/
theorem rising_putCell {m : List (Nat × α)} {a : Nat} {v : α} (ha : a < 256) (h : rising m = true) :
    rising (putCell m a v) = true := by
  induction m with
  | nil => simp [putCell, rising, ha]
  | cons q rest ih =>
    obtain ⟨b, u⟩ := q
    simp only [rising, Bool.and_eq_true, decide_eq_true_eq, List.all_eq_true] at h
    obtain ⟨⟨hb, hall⟩, hrest⟩ := h
    by_cases h1 : a < b
    · simp only [putCell, h1, if_true, rising, Bool.and_eq_true, decide_eq_true_eq, List.all_eq_true,
        List.mem_cons]
      refine ⟨⟨ha, ?_⟩, ⟨hb, hall⟩, hrest⟩
      rintro p (rfl | hp)
      · exact h1
      · exact h1.trans (hall p hp)
    · by_cases h2 : a = b
      · subst h2
        simp only [putCell, lt_irrefl, if_true, if_false, rising, Bool.and_eq_true, decide_eq_true_eq,
          List.all_eq_true]
        exact ⟨⟨ha, hall⟩, hrest⟩
      · simp only [putCell, h1, h2, if_false, rising, Bool.and_eq_true, decide_eq_true_eq,
          List.all_eq_true]
        refine ⟨⟨hb, fun p hp => ?_⟩, ih hrest⟩
        rcases mem_putCell hp with rfl | hp
        · show b < a; omega
        · exact hall p hp

/-! ## Data space -/

@[simp] theorem Memory.read_write_self (m : Memory) (a : Addr) (v : Byte) : (m.write a v).read a = some v := by
  simp [Memory.read, Memory.write]

theorem Memory.read_write_of_ne (m : Memory) {a c : Addr} (v : Byte) (h : c ≠ a) :
    (m.write a v).read c = m.read c :=
  cellAt_putCell_of_ne m v fun e => h (BitVec.eq_of_toNat_eq e)

theorem Memory.wf_write {m : Memory} (a : Addr) (v : Byte) (h : m.wf = true) : (m.write a v).wf = true :=
  rising_putCell a.isLt h

@[simp] theorem Memory.read_empty (a : Addr) : Memory.read [] a = none := rfl

@[simp] theorem Memory.wf_empty : Memory.wf [] = true := rfl

/-! ## Instruction space -/

@[simp] theorem Program.word_load_self (p : Program) (a : Addr) (w : InstrWord) :
    (p.load a w).word a = some w := by
  simp [Program.word, Program.load]

theorem Program.word_load_of_ne (p : Program) {a c : Addr} (w : InstrWord) (h : c ≠ a) :
    (p.load a w).word c = p.word c :=
  cellAt_putCell_of_ne p w fun e => h (BitVec.eq_of_toNat_eq e)

theorem Program.wf_load {p : Program} (a : Addr) (w : InstrWord) (h : p.wf = true) : (p.load a w).wf = true :=
  rising_putCell a.isLt h

@[simp] theorem Program.wf_empty : Program.wf [] = true := rfl

end Sys2Proof.Machine
end

