-- ==== Sys2Proof/Laws/Encoding.lean ====
section
/-! SUPPORT. The fields of the words the encoder builds, one lemma per format and field, and what the decoder
reads under each opcode. -/

namespace Sys2Proof

@[simp] theorem toFin_regBits (r : Reg) : (regBits r).toFin = r := rfl

/-! ## Fields of the built words (30_encoding.md R51 to R56, R66) -/

@[simp] theorem opcodeField_wordN (op : BitVec 5) : opcodeField (wordN op) = op := by
  unfold opcodeField wordN
  ext i hi
  interval_cases i <;> simp [widen]

@[simp] theorem opcodeField_wordJ (op : BitVec 5) (a : Addr) : opcodeField (wordJ op a) = op := by
  unfold opcodeField wordJ
  ext i hi
  interval_cases i <;> simp [widen]

@[simp] theorem immField_wordJ (op : BitVec 5) (a : Addr) : immField (wordJ op a) = a := by
  unfold immField wordJ
  ext i hi
  interval_cases i <;> simp [widen]

@[simp] theorem opcodeField_wordRI (op : BitVec 5) (r : Reg) (imm : Byte) : opcodeField (wordRI op r imm) = op := by
  unfold opcodeField wordRI
  ext i hi
  interval_cases i <;> simp [widen]

@[simp] theorem regField_wordRI (op : BitVec 5) (r : Reg) (imm : Byte) : regField (wordRI op r imm) = r := by
  unfold regField wordRI
  rw [← toFin_regBits r]
  congr 1
  ext i hi
  interval_cases i <;> simp [widen]

@[simp] theorem immField_wordRI (op : BitVec 5) (r : Reg) (imm : Byte) : immField (wordRI op r imm) = imm := by
  unfold immField wordRI
  ext i hi
  interval_cases i <;> simp [widen]

@[simp] theorem opcodeField_wordRR (op : BitVec 5) (rd rs : Reg) : opcodeField (wordRR op rd rs) = op := by
  unfold opcodeField wordRR
  ext i hi
  interval_cases i <;> simp [widen]

@[simp] theorem regField_wordRR (op : BitVec 5) (rd rs : Reg) : regField (wordRR op rd rs) = rd := by
  unfold regField wordRR
  rw [← toFin_regBits rd]
  congr 1
  ext i hi
  interval_cases i <;> simp [widen]

@[simp] theorem srcField_wordRR (op : BitVec 5) (rd rs : Reg) : srcField (wordRR op rd rs) = rs := by
  unfold srcField wordRR
  rw [← toFin_regBits rs]
  congr 1
  ext i hi
  interval_cases i <;> simp [widen]

@[simp] theorem opcodeField_wordR (op : BitVec 5) (r : Reg) : opcodeField (wordR op r) = op := by
  unfold opcodeField wordR
  ext i hi
  interval_cases i <;> simp [widen]

@[simp] theorem regField_wordR (op : BitVec 5) (r : Reg) : regField (wordR op r) = r := by
  unfold regField wordR
  rw [← toFin_regBits r]
  congr 1
  ext i hi
  interval_cases i <;> simp [widen]

@[simp] theorem opcodeField_wordRD (op : BitVec 5) (r : Reg) : opcodeField (wordRD op r) = op := by
  unfold opcodeField wordRD
  ext i hi
  interval_cases i <;> simp [widen]

@[simp] theorem regField_wordRD (op : BitVec 5) (r : Reg) : regField (wordRD op r) = r := by
  unfold regField wordRD
  rw [← toFin_regBits r]
  congr 1
  ext i hi
  interval_cases i <;> simp [widen]

@[simp] theorem srcField_wordRD (op : BitVec 5) (r : Reg) : srcField (wordRD op r) = r := by
  unfold srcField wordRD
  rw [← toFin_regBits r]
  congr 1
  ext i hi
  interval_cases i <;> simp [widen]

/-! ## The fields of any word -/

/-- Every opcode is one of the 32 of the map (R59, R62). -/
theorem opcode_cases (op : BitVec 5) :
    op = 0#5 ∨ op = 1#5 ∨ op = 2#5 ∨ op = 3#5 ∨ op = 4#5 ∨ op = 5#5 ∨ op = 6#5 ∨ op = 7#5 ∨
    op = 8#5 ∨ op = 9#5 ∨ op = 10#5 ∨ op = 11#5 ∨ op = 12#5 ∨ op = 13#5 ∨ op = 14#5 ∨ op = 15#5 ∨
    op = 16#5 ∨ op = 17#5 ∨ op = 18#5 ∨ op = 19#5 ∨ op = 20#5 ∨ op = 21#5 ∨ op = 22#5 ∨ op = 23#5 ∨
    op = 24#5 ∨ op = 25#5 ∨ op = 26#5 ∨ op = 27#5 ∨ op = 28#5 ∨ op = 29#5 ∨ op = 30#5 ∨ op = 31#5 := by
  revert op; decide

theorem regBits_regField (w : InstrWord) : regBits (regField w) = w.extractLsb' 8 3 := rfl

theorem regBits_srcField (w : InstrWord) : regBits (srcField w) = w.extractLsb' 5 3 := rfl

/-- A word rebuilt from the fields of a format is the word with the format's don't-care bits cleared. -/
theorem wordN_fields (w : InstrWord) : wordN (opcodeField w) = w &&& ~~~0x07FF#16 := by
  unfold wordN opcodeField widen
  ext i hi
  interval_cases i <;> simp

theorem wordJ_fields (w : InstrWord) : wordJ (opcodeField w) (immField w) = w &&& ~~~0x0700#16 := by
  unfold wordJ opcodeField immField widen
  ext i hi
  interval_cases i <;> simp

theorem wordRI_fields (w : InstrWord) : wordRI (opcodeField w) (regField w) (immField w) = w := by
  unfold wordRI
  rw [regBits_regField]
  unfold opcodeField immField widen
  ext i hi
  interval_cases i <;> simp

theorem wordR_fields (w : InstrWord) : wordR (opcodeField w) (regField w) = w &&& ~~~0x00FF#16 := by
  unfold wordR
  rw [regBits_regField]
  unfold opcodeField widen
  ext i hi
  interval_cases i <;> simp

theorem wordRR_fields (w : InstrWord) :
    wordRR (opcodeField w) (regField w) (srcField w) = w &&& ~~~0x001F#16 := by
  unfold wordRR
  rw [regBits_regField, regBits_srcField]
  unfold opcodeField widen
  ext i hi
  interval_cases i <;> simp

theorem wordRD_fields (w : InstrWord) (h : srcField w = regField w) :
    wordRD (opcodeField w) (regField w) = w &&& ~~~0x001F#16 := by
  rw [← wordRR_fields w, h]
  rfl

end Sys2Proof
end

