-- ==== Sys2Proof/Laws/State.lean ====
section
/-! SUPPORT. One lemma per field and update of the state: no later proof unfolds a record update. -/

namespace Sys2Proof.Machine

/-! ## Registers -/

@[simp] theorem State.reg_setReg_self (s : State) (r : Reg) (v : Byte) : (s.setReg r v).reg r = v := by
  simp [State.reg, State.setReg]

theorem State.reg_setReg_of_ne (s : State) {r q : Reg} (v : Byte) (h : q ≠ r) :
    (s.setReg r v).reg q = s.reg q := by
  have h' : ¬ r.val = q.val := fun e => h (Fin.ext e.symm)
  simp [State.reg, State.setReg, h']

/-- What stands at a data address depends on the parameters alone (20_memory.md R35). -/
theorem State.kindAt_congr {s t : State} (h : s.cfg = t.cfg) (a : Addr) : s.kindAt a = t.kindAt a := by
  unfold State.kindAt
  rw [h]

/-! ## setReg -/

@[simp] theorem State.setReg_regs (s : State) (r : Reg) (v : Byte) :
    (s.setReg r v).regs = s.regs.set r v := rfl

@[simp] theorem State.setReg_pc (s : State) (r : Reg) (v : Byte) :
    (s.setReg r v).pc = s.pc := rfl

@[simp] theorem State.setReg_flags (s : State) (r : Reg) (v : Byte) :
    (s.setReg r v).flags = s.flags := rfl

@[simp] theorem State.setReg_stack (s : State) (r : Reg) (v : Byte) :
    (s.setReg r v).stack = s.stack := rfl

@[simp] theorem State.setReg_inService (s : State) (r : Reg) (v : Byte) :
    (s.setReg r v).inService = s.inService := rfl

@[simp] theorem State.setReg_data (s : State) (r : Reg) (v : Byte) :
    (s.setReg r v).data = s.data := rfl

@[simp] theorem State.setReg_program (s : State) (r : Reg) (v : Byte) :
    (s.setReg r v).program = s.program := rfl

@[simp] theorem State.setReg_cfg (s : State) (r : Reg) (v : Byte) :
    (s.setReg r v).cfg = s.cfg := rfl

@[simp] theorem State.setReg_irqLine (s : State) (r : Reg) (v : Byte) :
    (s.setReg r v).irqLine = s.irqLine := rfl

@[simp] theorem State.setReg_irqAfter (s : State) (r : Reg) (v : Byte) :
    (s.setReg r v).irqAfter = s.irqAfter := rfl

@[simp] theorem State.setReg_boundary (s : State) (r : Reg) (v : Byte) :
    (s.setReg r v).boundary = s.boundary := rfl

@[simp] theorem State.setReg_deviceReads (s : State) (r : Reg) (v : Byte) :
    (s.setReg r v).deviceReads = s.deviceReads := rfl

@[simp] theorem State.setReg_deviceWrites (s : State) (r : Reg) (v : Byte) :
    (s.setReg r v).deviceWrites = s.deviceWrites := rfl

/-! ## setZF -/

@[simp] theorem State.setZF_regs (s : State) (b : Bool) :
    (s.setZF b).regs = s.regs := rfl

@[simp] theorem State.setZF_pc (s : State) (b : Bool) :
    (s.setZF b).pc = s.pc := rfl

@[simp] theorem State.setZF_flags (s : State) (b : Bool) :
    (s.setZF b).flags = { s.flags with zf := b } := rfl

@[simp] theorem State.setZF_stack (s : State) (b : Bool) :
    (s.setZF b).stack = s.stack := rfl

@[simp] theorem State.setZF_inService (s : State) (b : Bool) :
    (s.setZF b).inService = s.inService := rfl

@[simp] theorem State.setZF_data (s : State) (b : Bool) :
    (s.setZF b).data = s.data := rfl

@[simp] theorem State.setZF_program (s : State) (b : Bool) :
    (s.setZF b).program = s.program := rfl

@[simp] theorem State.setZF_cfg (s : State) (b : Bool) :
    (s.setZF b).cfg = s.cfg := rfl

@[simp] theorem State.setZF_irqLine (s : State) (b : Bool) :
    (s.setZF b).irqLine = s.irqLine := rfl

@[simp] theorem State.setZF_irqAfter (s : State) (b : Bool) :
    (s.setZF b).irqAfter = s.irqAfter := rfl

@[simp] theorem State.setZF_boundary (s : State) (b : Bool) :
    (s.setZF b).boundary = s.boundary := rfl

@[simp] theorem State.setZF_deviceReads (s : State) (b : Bool) :
    (s.setZF b).deviceReads = s.deviceReads := rfl

@[simp] theorem State.setZF_deviceWrites (s : State) (b : Bool) :
    (s.setZF b).deviceWrites = s.deviceWrites := rfl

@[simp] theorem State.reg_setZF (s : State) (b : Bool) (q : Reg) :
    (s.setZF b).reg q = s.reg q := rfl

/-! ## setCF -/

@[simp] theorem State.setCF_regs (s : State) (b : Bool) :
    (s.setCF b).regs = s.regs := rfl

@[simp] theorem State.setCF_pc (s : State) (b : Bool) :
    (s.setCF b).pc = s.pc := rfl

@[simp] theorem State.setCF_flags (s : State) (b : Bool) :
    (s.setCF b).flags = { s.flags with cf := b } := rfl

@[simp] theorem State.setCF_stack (s : State) (b : Bool) :
    (s.setCF b).stack = s.stack := rfl

@[simp] theorem State.setCF_inService (s : State) (b : Bool) :
    (s.setCF b).inService = s.inService := rfl

@[simp] theorem State.setCF_data (s : State) (b : Bool) :
    (s.setCF b).data = s.data := rfl

@[simp] theorem State.setCF_program (s : State) (b : Bool) :
    (s.setCF b).program = s.program := rfl

@[simp] theorem State.setCF_cfg (s : State) (b : Bool) :
    (s.setCF b).cfg = s.cfg := rfl

@[simp] theorem State.setCF_irqLine (s : State) (b : Bool) :
    (s.setCF b).irqLine = s.irqLine := rfl

@[simp] theorem State.setCF_irqAfter (s : State) (b : Bool) :
    (s.setCF b).irqAfter = s.irqAfter := rfl

@[simp] theorem State.setCF_boundary (s : State) (b : Bool) :
    (s.setCF b).boundary = s.boundary := rfl

@[simp] theorem State.setCF_deviceReads (s : State) (b : Bool) :
    (s.setCF b).deviceReads = s.deviceReads := rfl

@[simp] theorem State.setCF_deviceWrites (s : State) (b : Bool) :
    (s.setCF b).deviceWrites = s.deviceWrites := rfl

@[simp] theorem State.reg_setCF (s : State) (b : Bool) (q : Reg) :
    (s.setCF b).reg q = s.reg q := rfl

/-! ## setCompare -/

@[simp] theorem State.setCompare_regs (s : State) (e g l : Bool) :
    (s.setCompare e g l).regs = s.regs := rfl

@[simp] theorem State.setCompare_pc (s : State) (e g l : Bool) :
    (s.setCompare e g l).pc = s.pc := rfl

@[simp] theorem State.setCompare_flags (s : State) (e g l : Bool) :
    (s.setCompare e g l).flags = { s.flags with ef := e, gf := g, sf := l } := rfl

@[simp] theorem State.setCompare_stack (s : State) (e g l : Bool) :
    (s.setCompare e g l).stack = s.stack := rfl

@[simp] theorem State.setCompare_inService (s : State) (e g l : Bool) :
    (s.setCompare e g l).inService = s.inService := rfl

@[simp] theorem State.setCompare_data (s : State) (e g l : Bool) :
    (s.setCompare e g l).data = s.data := rfl

@[simp] theorem State.setCompare_program (s : State) (e g l : Bool) :
    (s.setCompare e g l).program = s.program := rfl

@[simp] theorem State.setCompare_cfg (s : State) (e g l : Bool) :
    (s.setCompare e g l).cfg = s.cfg := rfl

@[simp] theorem State.setCompare_irqLine (s : State) (e g l : Bool) :
    (s.setCompare e g l).irqLine = s.irqLine := rfl

@[simp] theorem State.setCompare_irqAfter (s : State) (e g l : Bool) :
    (s.setCompare e g l).irqAfter = s.irqAfter := rfl

@[simp] theorem State.setCompare_boundary (s : State) (e g l : Bool) :
    (s.setCompare e g l).boundary = s.boundary := rfl

@[simp] theorem State.setCompare_deviceReads (s : State) (e g l : Bool) :
    (s.setCompare e g l).deviceReads = s.deviceReads := rfl

@[simp] theorem State.setCompare_deviceWrites (s : State) (e g l : Bool) :
    (s.setCompare e g l).deviceWrites = s.deviceWrites := rfl

@[simp] theorem State.reg_setCompare (s : State) (e g l : Bool) (q : Reg) :
    (s.setCompare e g l).reg q = s.reg q := rfl

/-! ## passBoundary -/

@[simp] theorem State.passBoundary_regs (s : State) :
    s.passBoundary.regs = s.regs := rfl

@[simp] theorem State.passBoundary_pc (s : State) :
    s.passBoundary.pc = s.pc := rfl

@[simp] theorem State.passBoundary_flags (s : State) :
    s.passBoundary.flags = s.flags := rfl

@[simp] theorem State.passBoundary_stack (s : State) :
    s.passBoundary.stack = s.stack := rfl

@[simp] theorem State.passBoundary_inService (s : State) :
    s.passBoundary.inService = s.inService := rfl

@[simp] theorem State.passBoundary_data (s : State) :
    s.passBoundary.data = s.data := rfl

@[simp] theorem State.passBoundary_program (s : State) :
    s.passBoundary.program = s.program := rfl

@[simp] theorem State.passBoundary_cfg (s : State) :
    s.passBoundary.cfg = s.cfg := rfl

@[simp] theorem State.passBoundary_irqLine (s : State) :
    s.passBoundary.irqLine = s.irqLine.tail := rfl

@[simp] theorem State.passBoundary_irqAfter (s : State) :
    s.passBoundary.irqAfter = s.irqAfter := rfl

@[simp] theorem State.passBoundary_boundary (s : State) :
    s.passBoundary.boundary = s.boundary + 1 := rfl

@[simp] theorem State.passBoundary_deviceReads (s : State) :
    s.passBoundary.deviceReads = s.deviceReads := rfl

@[simp] theorem State.passBoundary_deviceWrites (s : State) :
    s.passBoundary.deviceWrites = s.deviceWrites := rfl

@[simp] theorem State.reg_passBoundary (s : State) (q : Reg) :
    s.passBoundary.reg q = s.reg q := rfl

/-! ## The schedule -/

/-- What the schedule says depends on its three fields alone: whatever leaves them alone leaves every coming request
as it was. -/
theorem State.requestAt_congr {s t : State} (hl : t.irqLine = s.irqLine) (ha : t.irqAfter = s.irqAfter)
    (hb : t.boundary = s.boundary) (k : Nat) : t.requestAt k = s.requestAt k := by
  unfold State.requestAt
  rw [hl, ha, hb]

/-- Passing a boundary moves the schedule on by one (60_exceptions.md R164). -/
@[simp] theorem State.requestAt_passBoundary (s : State) (k : Nat) :
    s.passBoundary.requestAt k = s.requestAt (k + 1) := by
  have h : s.boundary + 1 + k = s.boundary + (k + 1) := by omega
  simp [State.requestAt, h]

end Sys2Proof.Machine
end

