-- ==== Sys2Proof/Laws/Ops.lean ====
section
/-! SUPPORT. One lemma per shared operation that says all it can do: if it answers, then this holds. Later proofs
cite these instead of unfolding the operation. -/

namespace Sys2Proof.Machine

/-! ## Sequencing -/

@[simp] theorem andThen_ok {α : Type} (a : α) (k : α → Result) : andThen (.ok a) k = k a := rfl

@[simp] theorem andThen_error {α : Type} (f : Fault) (k : α → Result) : andThen (.error f) k = .fault f := rfl

/-- Going on to a next state means the primitive answered. -/
theorem next_of_andThen {α : Type} {x : Except Fault α} {k : α → Result} {t : State}
    (h : andThen x k = .next t) : ∃ a, x = .ok a ∧ k a = .next t := by
  cases x with
  | ok a => exact ⟨a, rfl, h⟩
  | error f => simp at h

/-- A fault comes from the primitive or from what follows it. -/
theorem fault_of_andThen {α : Type} {x : Except Fault α} {k : α → Result} {f : Fault}
    (h : andThen x k = .fault f) : x = .error f ∨ ∃ a, x = .ok a ∧ k a = .fault f := by
  cases x with
  | ok a => exact .inr ⟨a, rfl, h⟩
  | error g => simp at h; simp [h]

/-! ## Program counter -/

@[simp] theorem jumpTo_eq (t : Addr) (s : State) : jumpTo t s = .next { s with pc := t } := rfl

theorem advance_of_ne {s : State} (h : s.pc ≠ 0xFF#8) : advance s = .next { s with pc := s.pc + 1#8 } := by
  simp [advance, h]

theorem advance_of_eq {s : State} (h : s.pc = 0xFF#8) : advance s = .fault (.pcOverrun 0xFF#8) := by
  simp [advance, h]

/-- All that a sequential advance can do when it goes on. -/
theorem next_of_advance {s t : State} (h : advance s = .next t) :
    s.pc ≠ 0xFF#8 ∧ t = { s with pc := s.pc + 1#8 } := by
  by_cases hp : s.pc = 0xFF#8
  · simp [advance, hp] at h
  · rw [advance_of_ne hp] at h
    exact ⟨hp, (Host.Outcome.next.inj h).symm⟩

/-- All that a conditional jump can do when it goes on. -/
theorem next_of_branchOn {f : FlagName} {a : Addr} {s t : State} (h : branchOn f a s = .next t) :
    (s.flags.get f = true ∧ t = { s with pc := a }) ∨
    (s.flags.get f = false ∧ s.pc ≠ 0xFF#8 ∧ t = { s with pc := s.pc + 1#8 }) := by
  unfold branchOn at h
  cases hf : s.flags.get f with
  | true =>
    rw [hf] at h
    exact .inl ⟨rfl, (Host.Outcome.next.inj h).symm⟩
  | false =>
    rw [hf] at h
    exact .inr ⟨rfl, next_of_advance h⟩

/-! ## Data space -/

/-- All that `MemRead` can do when it answers. -/
theorem ok_of_memRead {a : Addr} {s t : State} {v : Byte} (h : memRead a s = .ok (v, t)) :
    (s.kindAt a = .ram ∧ s.data.read a = some v ∧ t = s) ∨
    (s.kindAt a = .device ∧ v = Config.deviceInput s.deviceReads a ∧
      t = { s with deviceReads := s.deviceReads + 1 }) := by
  unfold memRead at h
  cases hk : s.kindAt a with
  | ram =>
    rw [hk] at h
    cases hr : s.data.read a with
    | none => simp [hr] at h
    | some u =>
      simp only [hr, Except.ok.injEq, Prod.mk.injEq] at h
      exact .inl ⟨rfl, by rw [h.1], h.2.symm⟩
  | device =>
    rw [hk] at h
    simp only [Except.ok.injEq, Prod.mk.injEq] at h
    exact .inr ⟨rfl, h.1.symm, h.2.symm⟩
  | absent => simp [hk] at h

/-- All that `MemWrite` can do when it answers. -/
theorem ok_of_memWrite {a : Addr} {v : Byte} {s t : State} (h : memWrite a v s = .ok t) :
    (s.kindAt a = .ram ∧ t = { s with data := s.data.write a v }) ∨
    (s.kindAt a = .device ∧ t = { s with deviceWrites := (a.toNat, v) :: s.deviceWrites }) := by
  unfold memWrite at h
  cases hk : s.kindAt a with
  | ram =>
    rw [hk] at h
    exact .inl ⟨rfl, (Except.ok.inj h).symm⟩
  | device =>
    rw [hk] at h
    exact .inr ⟨rfl, (Except.ok.inj h).symm⟩
  | absent => simp [hk] at h

/-! ## Stack -/

/-- All that `Push` can do when it answers. -/
theorem ok_of_pushEntry {e : Entry} {s t : State} (h : pushEntry e s = .ok t) :
    s.stack.length ≠ s.cfg.stackDepth ∧ t = { s with stack := e :: s.stack } := by
  unfold pushEntry at h
  by_cases hf : s.stack.length = s.cfg.stackDepth
  · simp [hf] at h
  · rw [if_neg hf] at h
    exact ⟨hf, (Except.ok.inj h).symm⟩

/-- All that `Pop` can do when it answers. -/
theorem ok_of_popEntry {α : Type} {k : EntryKind} {payload : Entry → Option α} {s t : State} {p : α}
    (h : popEntry k payload s = .ok (p, t)) :
    ∃ e rest, s.stack = e :: rest ∧ payload e = some p ∧ t = { s with stack := rest } := by
  unfold popEntry at h
  cases hs : s.stack with
  | nil => simp [hs] at h
  | cons e rest =>
    rw [hs] at h
    cases hp : payload e with
    | none => simp [hp] at h
    | some q =>
      simp only [hp, Except.ok.injEq, Prod.mk.injEq] at h
      exact ⟨e, rest, rfl, by rw [← h.1, hp], h.2.symm⟩

theorem ok_of_popData {s t : State} {v : Byte} (h : popData s = .ok (v, t)) :
    ∃ rest, s.stack = .data v :: rest ∧ t = { s with stack := rest } := by
  obtain ⟨e, rest, hs, hp, ht⟩ := ok_of_popEntry h
  cases e with
  | data w => exact ⟨rest, by rw [hs, Option.some.inj hp], ht⟩
  | call a => simp [Entry.asData] at hp
  | irq a f => simp [Entry.asData] at hp

theorem ok_of_popCall {s t : State} {a : Addr} (h : popCall s = .ok (a, t)) :
    ∃ rest, s.stack = .call a :: rest ∧ t = { s with stack := rest } := by
  obtain ⟨e, rest, hs, hp, ht⟩ := ok_of_popEntry h
  cases e with
  | data v => simp [Entry.asCall] at hp
  | call b => exact ⟨rest, by rw [hs, Option.some.inj hp], ht⟩
  | irq b f => simp [Entry.asCall] at hp

theorem ok_of_popIrq {s t : State} {a : Addr} {f : Option Flags} (h : popIrq s = .ok ((a, f), t)) :
    ∃ rest, s.stack = .irq a f :: rest ∧ t = { s with stack := rest } := by
  obtain ⟨e, rest, hs, hp, ht⟩ := ok_of_popEntry h
  cases e with
  | data v => simp [Entry.asIrq] at hp
  | call b => simp [Entry.asIrq] at hp
  | irq b g =>
    have hp' := Option.some.inj hp
    simp only [Prod.mk.injEq] at hp'
    exact ⟨rest, by rw [hs, hp'.1, hp'.2], ht⟩

/-! ## Interrupts -/

/-- All that interrupt entry can do when it goes on (60_exceptions.md R167). -/
theorem next_of_enterInterrupt {s t : State} (h : enterInterrupt s = .next t) :
    s.stack.length ≠ s.cfg.stackDepth ∧
    t = { s with
      stack := .irq s.pc (if s.cfg.irqSavesFlags then some s.flags else none) :: s.stack
      inService := true
      pc := s.cfg.irqVector } := by
  obtain ⟨u, hu, hn⟩ := next_of_andThen h
  obtain ⟨hl, rfl⟩ := ok_of_pushEntry hu
  exact ⟨hl, (Host.Outcome.next.inj hn).symm⟩

/-- All that a return from interrupt can do when it goes on (40_jump.md R72). -/
theorem next_of_returnFromInterrupt {s t : State} (h : returnFromInterrupt s = .next t) :
    ∃ a f rest, s.stack = .irq a f :: rest ∧
      t = { s with
        stack := rest
        flags := restoredFlags s.cfg.irqSavesFlags f s.flags
        inService := false
        pc := a } := by
  obtain ⟨⟨⟨a, f⟩, u⟩, hu, hn⟩ := next_of_andThen h
  obtain ⟨rest, hs, rfl⟩ := ok_of_popIrq hu
  exact ⟨a, f, rest, hs, (Host.Outcome.next.inj hn).symm⟩

/-! ## Fetch -/

theorem ok_of_fetch {s : State} {w : InstrWord} (h : fetch s = .ok w) : s.program.word s.pc = some w := by
  unfold fetch at h
  cases hw : s.program.word s.pc with
  | none => simp [hw] at h
  | some u =>
    rw [hw] at h
    rw [Except.ok.inj h]

theorem ok_of_decodeFetched {s : State} {w : InstrWord} {i : Instr} (h : decodeFetched w s = .ok i) :
    decode w = .ok i := by
  unfold decodeFetched at h
  cases hd : decode w with
  | ok j =>
    rw [hd] at h
    rw [Except.ok.inj h]
  | error e => cases e; simp [hd] at h

end Sys2Proof.Machine
end

