-- ==== Sys2Proof/Laws/Exec.lean ====
section
/-! SUPPORT. What each meaning can do when it answers a next state, and what one step can do. Proofs about every
instruction cite these instead of unfolding the meanings. -/

namespace Sys2Proof.Machine

/-! ## Jump family -/

theorem next_of_execNop {s t : State} (h : execNop s = .next t) : t = { s with pc := s.pc + 1#8 } :=
  (next_of_advance h).2

theorem next_of_execReti {s t : State} (h : execReti s = .next t) :
    ∃ a f rest, s.stack = .irq a f :: rest ∧
      t = { s with
        stack := rest
        flags := restoredFlags s.cfg.irqSavesFlags f s.flags
        inService := false
        pc := a } :=
  next_of_returnFromInterrupt h

theorem next_of_execRetc {s t : State} (h : execRetc s = .next t) :
    ∃ a rest, s.stack = .call a :: rest ∧ t = { s with stack := rest, pc := a } := by
  obtain ⟨⟨a, u⟩, hu, hn⟩ := next_of_andThen h
  obtain ⟨rest, hs, rfl⟩ := ok_of_popCall hu
  exact ⟨a, rest, hs, (Host.Outcome.next.inj hn).symm⟩

theorem next_of_execCall {a : Addr} {s t : State} (h : execCall a s = .next t) :
    s.pc ≠ 0xFF#8 ∧ s.stack.length ≠ s.cfg.stackDepth ∧
      t = { s with stack := .call (s.pc + 1#8) :: s.stack, pc := a } := by
  unfold execCall at h
  by_cases hp : s.pc = 0xFF#8
  · simp [hp] at h
  · rw [if_neg hp] at h
    obtain ⟨u, hu, hn⟩ := next_of_andThen h
    obtain ⟨hl, rfl⟩ := ok_of_pushEntry hu
    exact ⟨hp, hl, (Host.Outcome.next.inj hn).symm⟩

theorem next_of_execJmp {a : Addr} {s t : State} (h : execJmp a s = .next t) : t = { s with pc := a } :=
  (Host.Outcome.next.inj h).symm

/-! ## Register and memory family -/

theorem next_of_execMovl {rd : Reg} {l : Byte} {s t : State} (h : execMovl rd l s = .next t) :
    t = { s with regs := s.regs.set rd l, pc := s.pc + 1#8 } :=
  (next_of_advance h).2

theorem next_of_execMovr {rd rs : Reg} {s t : State} (h : execMovr rd rs s = .next t) :
    t = { s with regs := s.regs.set rd (s.reg rs), pc := s.pc + 1#8 } :=
  (next_of_advance h).2

theorem next_of_execLdr {rd : Reg} {a : Addr} {s t : State} (h : execLdr rd a s = .next t) :
    (∃ v, s.kindAt a = .ram ∧ s.data.read a = some v ∧
      t = { s with regs := s.regs.set rd v, pc := s.pc + 1#8 }) ∨
    (s.kindAt a = .device ∧
      t = { s with
        regs := s.regs.set rd (Config.deviceInput s.deviceReads a)
        deviceReads := s.deviceReads + 1
        pc := s.pc + 1#8 }) := by
  obtain ⟨⟨v, u⟩, hu, hn⟩ := next_of_andThen h
  obtain ⟨_, ht⟩ := next_of_advance hn
  rcases ok_of_memRead hu with ⟨hk, hr, rfl⟩ | ⟨hk, rfl, rfl⟩
  · exact .inl ⟨v, hk, hr, ht⟩
  · exact .inr ⟨hk, ht⟩

theorem next_of_execStr {a : Addr} {rs : Reg} {s t : State} (h : execStr a rs s = .next t) :
    (s.kindAt a = .ram ∧ t = { s with data := s.data.write a (s.reg rs), pc := s.pc + 1#8 }) ∨
    (s.kindAt a = .device ∧
      t = { s with deviceWrites := (a.toNat, s.reg rs) :: s.deviceWrites, pc := s.pc + 1#8 }) := by
  obtain ⟨u, hu, hn⟩ := next_of_andThen h
  obtain ⟨_, ht⟩ := next_of_advance hn
  rcases ok_of_memWrite hu with ⟨hk, rfl⟩ | ⟨hk, rfl⟩
  · exact .inl ⟨hk, ht⟩
  · exact .inr ⟨hk, ht⟩

theorem next_of_execPush {rs : Reg} {s t : State} (h : execPush rs s = .next t) :
    s.stack.length ≠ s.cfg.stackDepth ∧
      t = { s with stack := .data (s.reg rs) :: s.stack, pc := s.pc + 1#8 } := by
  obtain ⟨u, hu, hn⟩ := next_of_andThen h
  obtain ⟨hl, rfl⟩ := ok_of_pushEntry hu
  exact ⟨hl, (next_of_advance hn).2⟩

theorem next_of_execPop {rd : Reg} {s t : State} (h : execPop rd s = .next t) :
    ∃ v rest, s.stack = .data v :: rest ∧
      t = { s with regs := s.regs.set rd v, stack := rest, pc := s.pc + 1#8 } := by
  obtain ⟨⟨v, u⟩, hu, hn⟩ := next_of_andThen h
  obtain ⟨rest, hs, rfl⟩ := ok_of_popData hu
  exact ⟨v, rest, hs, (next_of_advance hn).2⟩

/-! ## ALU, one operand -/

theorem next_of_execNot {r : Reg} {s t : State} (h : execNot r s = .next t) :
    t = { s with
      regs := s.regs.set r (~~~(s.reg r))
      flags := { s.flags with zf := zeroFlag (~~~(s.reg r)) }
      pc := s.pc + 1#8 } :=
  (next_of_advance h).2

theorem next_of_execSwap {r : Reg} {s t : State} (h : execSwap r s = .next t) :
    t = { s with
      regs := s.regs.set r (swapResult (s.reg r))
      flags := { s.flags with zf := zeroFlag (swapResult (s.reg r)) }
      pc := s.pc + 1#8 } :=
  (next_of_advance h).2

/-- The value RR writes. -/
def rightValue (r : Reg) (s : State) : Byte :=
  rightResult (shiftIn s.cfg.shiftFill s.flags.cf (rightLeaving (s.reg r))) (s.reg r)

/-- The value RL writes. -/
def leftValue (r : Reg) (s : State) : Byte :=
  leftResult (shiftIn s.cfg.shiftFill s.flags.cf (leftLeaving (s.reg r))) (s.reg r)

theorem next_of_execRr {r : Reg} {s t : State} (h : execRr r s = .next t) :
    t = { s with
      regs := s.regs.set r (rightValue r s)
      flags := { s.flags with zf := zeroFlag (rightValue r s), cf := rightLeaving (s.reg r) }
      pc := s.pc + 1#8 } :=
  (next_of_advance h).2

theorem next_of_execRl {r : Reg} {s t : State} (h : execRl r s = .next t) :
    t = { s with
      regs := s.regs.set r (leftValue r s)
      flags := { s.flags with zf := zeroFlag (leftValue r s), cf := leftLeaving (s.reg r) }
      pc := s.pc + 1#8 } :=
  (next_of_advance h).2

/-! ## ALU, two operands -/

theorem next_of_aluLogic {f : Byte → Byte → Byte} {rd : Reg} {b : Operand2} {s t : State}
    (h : aluLogic f rd b s = .next t) :
    t = { s with
      regs := s.regs.set rd (f (s.reg rd) (operandValue s b))
      flags := { s.flags with zf := zeroFlag (f (s.reg rd) (operandValue s b)) }
      pc := s.pc + 1#8 } :=
  (next_of_advance h).2

theorem next_of_aluAdd {rd : Reg} {b : Operand2} {s t : State} (h : aluAdd rd b s = .next t) :
    t = { s with
      regs := s.regs.set rd (addResult (s.reg rd) (operandValue s b))
      flags := { s.flags with
        cf := addCarry (s.reg rd) (operandValue s b)
        zf := zeroFlag (addResult (s.reg rd) (operandValue s b)) }
      pc := s.pc + 1#8 } :=
  (next_of_advance h).2

theorem next_of_aluSub {rd : Reg} {b : Operand2} {s t : State} (h : aluSub rd b s = .next t) :
    t = { s with
      regs := s.regs.set rd (subResult (s.reg rd) (operandValue s b))
      flags := { s.flags with
        cf := subCarry s.cfg.subCfIsBorrow (s.reg rd) (operandValue s b)
        zf := zeroFlag (subResult (s.reg rd) (operandValue s b)) }
      pc := s.pc + 1#8 } :=
  (next_of_advance h).2

theorem next_of_aluCompare {rd : Reg} {b : Operand2} {s t : State} (h : aluCompare rd b s = .next t) :
    t = { s with
      flags := { s.flags with
        ef := cmpEqual s.cfg.cmpSigned (s.reg rd) (operandValue s b)
        gf := cmpGreater s.cfg.cmpSigned (s.reg rd) (operandValue s b)
        sf := cmpSmaller s.cfg.cmpSigned (s.reg rd) (operandValue s b) }
      pc := s.pc + 1#8 } :=
  (next_of_advance h).2

/-! ## No instruction is refused -/

theorem advance_ne_refused (s : State) (r : Refusal) : advance s ≠ .refused r := by
  unfold advance; split <;> simp

theorem branchOn_ne_refused (f : FlagName) (a : Addr) (s : State) (r : Refusal) :
    branchOn f a s ≠ .refused r := by
  unfold branchOn
  split
  · simp
  · exact advance_ne_refused s r

theorem andThen_ne_refused {α : Type} {x : Except Fault α} {k : α → Result} (r : Refusal)
    (h : ∀ a, k a ≠ .refused r) : andThen x k ≠ .refused r := by
  cases x with
  | ok a => exact h a
  | error f => simp

/-! ## One step -/

/-- All that a step can do when it goes on: enter an interrupt, or execute the decoded instruction at `pc`. -/
theorem next_of_step {s t : State} (h : step s = .next t) :
    (s.acceptsInterrupt = true ∧ enterInterrupt s.passBoundary = .next t) ∨
    (s.acceptsInterrupt = false ∧ ∃ w i, s.program.word s.pc = some w ∧ decode w = .ok i ∧
      exec i s.passBoundary = .next t) := by
  unfold step at h
  cases ha : s.acceptsInterrupt with
  | true =>
    rw [ha] at h
    exact .inl ⟨rfl, h⟩
  | false =>
    rw [ha] at h
    obtain ⟨w, hw, h⟩ := next_of_andThen h
    obtain ⟨i, hi, h⟩ := next_of_andThen h
    exact .inr ⟨rfl, w, i, ok_of_fetch hw, ok_of_decodeFetched hi, h⟩

/-- A word placed where the step fetches comes with the request withdrawn at that one boundary. -/
theorem State.requestAt_withFetchWord (s : State) (nbits w : Nat) :
    (s.withFetchWord nbits w).requestAt 0 = false := by
  unfold State.requestAt State.withFetchWord withoutRequest
  cases s.irqLine <;> rfl

/-! ## Runs of several steps -/

/-- A run goes on from the state its first step reaches. -/
theorem run_succ_of_next {s t : State} (k : Nat) (h : step s = .next t) :
    Host.Core.run core (k + 1) s = Host.Core.run core k t := by
  have h' : core.step s = .next t := h
  simp only [Host.Core.run, h']

/-- A run that goes on for one more step has taken its first step. -/
theorem next_of_run_succ {s u : State} {k : Nat} (h : Host.Core.run core (k + 1) s = .next u) :
    ∃ t, step s = .next t ∧ Host.Core.run core k t = .next u := by
  cases hs : step s with
  | next t => exact ⟨t, rfl, by rw [← run_succ_of_next k hs]; exact h⟩
  | fault f =>
    have h' : core.step s = .fault f := hs
    simp only [Host.Core.run, h'] at h
    cases h
  | refused r =>
    have h' : core.step s = .refused r := hs
    simp only [Host.Core.run, h'] at h
    cases h

end Sys2Proof.Machine
end

