-- ==== Sys2Proof/Laws/Flags.lean ====
section
/-! SUPPORT. What the ALU results are, as arithmetic and bit by bit: later proofs cite these and do not unfold the
results. -/

namespace Sys2Proof.Machine

/-! ## Addition and subtraction (43_alu_two.md R131, R132) -/

/-- The added pattern is the sum of bit vectors. -/
theorem addResult_eq (a b : Byte) : addResult a b = a + b := by
  apply BitVec.eq_of_toNat_eq
  simp [addResult, addSum]

/-- The subtracted pattern is the difference of bit vectors. -/
theorem subResult_eq (a b : Byte) : subResult a b = a - b := by
  apply BitVec.eq_of_toNat_eq
  have := a.isLt
  have := b.isLt
  simp only [subResult, subDifference, BitVec.toNat_ofInt, BitVec.toNat_sub]
  omega

/-- The subtracted pattern as a number: the difference modulo 256. -/
theorem toNat_subResult (a b : Byte) :
    ((subResult a b).toNat : Int) = ((a.toNat : Int) - (b.toNat : Int)) % 256 := by
  simp only [subResult, subDifference, BitVec.toNat_ofInt]
  omega

/-! ## Shifts and the swap (42_alu_single.md R112, R113, R114) -/

/-- The bits of a value shifted right: each bit comes from the next higher place, the entering bit is bit 7. -/
theorem getLsbD_rightResult (inb : Bool) (v : Byte) (i : Nat) :
    (rightResult inb v).getLsbD i = if i < 7 then v.getLsbD (i + 1) else (decide (i = 7) && inb) := by
  have h := BitVec.getLsbD_append (x := BitVec.ofBool inb) (y := v.extractLsb' 1 7) (i := i)
  refine Eq.trans h ?_
  by_cases h7 : i < 7
  · simp [h7, Nat.add_comm]
  · by_cases he : i = 7
    · simp [he]
    · have h0 : i - 7 ≠ 0 := by omega
      cases inb <;> simp [h7, he, h0]

/-- The bits of a value shifted left: each bit comes from the next lower place, the entering bit is bit 0. -/
theorem getLsbD_leftResult (inb : Bool) (v : Byte) (i : Nat) :
    (leftResult inb v).getLsbD i = if i = 0 then inb else (decide (i < 8) && v.getLsbD (i - 1)) := by
  have h := BitVec.getLsbD_append (x := v.extractLsb' 0 7) (y := BitVec.ofBool inb) (i := i)
  refine Eq.trans h ?_
  by_cases h0 : i = 0
  · simp [h0]
  · have h1 : ¬ i < 1 := by omega
    have h2 : i - 1 < 7 ↔ i < 8 := by omega
    simp [h0, h1, h2]

/-- The bits of a value with its halves exchanged. -/
theorem getLsbD_swapResult (v : Byte) (i : Nat) :
    (swapResult v).getLsbD i = if i < 4 then v.getLsbD (i + 4) else (decide (i < 8) && v.getLsbD (i - 4)) := by
  have h := BitVec.getLsbD_append (x := v.extractLsb' 0 4) (y := v.extractLsb' 4 4) (i := i)
  refine Eq.trans h ?_
  by_cases h4 : i < 4
  · simp [h4, Nat.add_comm]
  · have h2 : i - 4 < 4 ↔ i < 8 := by omega
    simp [h4, h2]

end Sys2Proof.Machine
end

