-- ==== Sys2Proof/Laws/PerInstr.lean ====
section
/-! SUPPORT. Statements made for every instruction, one lemma per constructor. -/

namespace Sys2Proof.Laws.CanonicalOpcode

/-- The opcode the spec's map gives an instruction (30_encoding.md R59). -/
def opcodeOf : Instr → BitVec 5
  | .nop => 0b00000#5
  | .reti => 0b00001#5
  | .retc => 0b00010#5
  | .call _ => 0b00011#5
  | .jmp _ => 0b00100#5
  | .jz _ => 0b00101#5
  | .jc _ => 0b00110#5
  | .je _ => 0b00111#5
  | .jg _ => 0b01000#5
  | .js _ => 0b01001#5
  | .movl _ _ => 0b01010#5
  | .movr _ _ => 0b01011#5
  | .ldr _ _ => 0b01100#5
  | .str _ _ => 0b01101#5
  | .push _ => 0b01110#5
  | .pop _ => 0b01111#5
  | .not _ => 0b10000#5
  | .rr _ => 0b10001#5
  | .rl _ => 0b10010#5
  | .swap _ => 0b10011#5
  | .andl _ _ => 0b10100#5
  | .andr _ _ => 0b10101#5
  | .orl _ _ => 0b10110#5
  | .orr _ _ => 0b10111#5
  | .xorl _ _ => 0b11000#5
  | .xorr _ _ => 0b11001#5
  | .addl _ _ => 0b11010#5
  | .addr _ _ => 0b11011#5
  | .subl _ _ => 0b11100#5
  | .subr _ _ => 0b11101#5
  | .cmpl _ _ => 0b11110#5
  | .cmpr _ _ => 0b11111#5

/-- The canonical word of the instruction carries its opcode in bits 15-11 (30_encoding.md R50, R66). -/
def Statement (i : Instr) : Prop := opcodeField (encode i) = opcodeOf i

end Sys2Proof.Laws.CanonicalOpcode

namespace Sys2Proof

theorem Laws.CanonicalOpcode.nop :
    Laws.CanonicalOpcode.Statement (.nop) := by
  simp [Laws.CanonicalOpcode.Statement, encode, Laws.CanonicalOpcode.opcodeOf]

theorem Laws.CanonicalOpcode.reti :
    Laws.CanonicalOpcode.Statement (.reti) := by
  simp [Laws.CanonicalOpcode.Statement, encode, Laws.CanonicalOpcode.opcodeOf]

theorem Laws.CanonicalOpcode.retc :
    Laws.CanonicalOpcode.Statement (.retc) := by
  simp [Laws.CanonicalOpcode.Statement, encode, Laws.CanonicalOpcode.opcodeOf]

theorem Laws.CanonicalOpcode.call (a : Addr) :
    Laws.CanonicalOpcode.Statement (.call a) := by
  simp [Laws.CanonicalOpcode.Statement, encode, Laws.CanonicalOpcode.opcodeOf]

theorem Laws.CanonicalOpcode.jmp (a : Addr) :
    Laws.CanonicalOpcode.Statement (.jmp a) := by
  simp [Laws.CanonicalOpcode.Statement, encode, Laws.CanonicalOpcode.opcodeOf]

theorem Laws.CanonicalOpcode.jz (a : Addr) :
    Laws.CanonicalOpcode.Statement (.jz a) := by
  simp [Laws.CanonicalOpcode.Statement, encode, Laws.CanonicalOpcode.opcodeOf]

theorem Laws.CanonicalOpcode.jc (a : Addr) :
    Laws.CanonicalOpcode.Statement (.jc a) := by
  simp [Laws.CanonicalOpcode.Statement, encode, Laws.CanonicalOpcode.opcodeOf]

theorem Laws.CanonicalOpcode.je (a : Addr) :
    Laws.CanonicalOpcode.Statement (.je a) := by
  simp [Laws.CanonicalOpcode.Statement, encode, Laws.CanonicalOpcode.opcodeOf]

theorem Laws.CanonicalOpcode.jg (a : Addr) :
    Laws.CanonicalOpcode.Statement (.jg a) := by
  simp [Laws.CanonicalOpcode.Statement, encode, Laws.CanonicalOpcode.opcodeOf]

theorem Laws.CanonicalOpcode.js (a : Addr) :
    Laws.CanonicalOpcode.Statement (.js a) := by
  simp [Laws.CanonicalOpcode.Statement, encode, Laws.CanonicalOpcode.opcodeOf]

theorem Laws.CanonicalOpcode.movl (rd : Reg) (l : Byte) :
    Laws.CanonicalOpcode.Statement (.movl rd l) := by
  simp [Laws.CanonicalOpcode.Statement, encode, Laws.CanonicalOpcode.opcodeOf]

theorem Laws.CanonicalOpcode.movr (rd : Reg) (rs : Reg) :
    Laws.CanonicalOpcode.Statement (.movr rd rs) := by
  simp [Laws.CanonicalOpcode.Statement, encode, Laws.CanonicalOpcode.opcodeOf]

theorem Laws.CanonicalOpcode.ldr (rd : Reg) (a : Addr) :
    Laws.CanonicalOpcode.Statement (.ldr rd a) := by
  simp [Laws.CanonicalOpcode.Statement, encode, Laws.CanonicalOpcode.opcodeOf]

theorem Laws.CanonicalOpcode.str (a : Addr) (rs : Reg) :
    Laws.CanonicalOpcode.Statement (.str a rs) := by
  simp [Laws.CanonicalOpcode.Statement, encode, Laws.CanonicalOpcode.opcodeOf]

theorem Laws.CanonicalOpcode.push (rs : Reg) :
    Laws.CanonicalOpcode.Statement (.push rs) := by
  simp [Laws.CanonicalOpcode.Statement, encode, Laws.CanonicalOpcode.opcodeOf]

theorem Laws.CanonicalOpcode.pop (rd : Reg) :
    Laws.CanonicalOpcode.Statement (.pop rd) := by
  simp [Laws.CanonicalOpcode.Statement, encode, Laws.CanonicalOpcode.opcodeOf]

theorem Laws.CanonicalOpcode.not (rds : Reg) :
    Laws.CanonicalOpcode.Statement (.not rds) := by
  simp [Laws.CanonicalOpcode.Statement, encode, Laws.CanonicalOpcode.opcodeOf]

theorem Laws.CanonicalOpcode.rr (rds : Reg) :
    Laws.CanonicalOpcode.Statement (.rr rds) := by
  simp [Laws.CanonicalOpcode.Statement, encode, Laws.CanonicalOpcode.opcodeOf]

theorem Laws.CanonicalOpcode.rl (rds : Reg) :
    Laws.CanonicalOpcode.Statement (.rl rds) := by
  simp [Laws.CanonicalOpcode.Statement, encode, Laws.CanonicalOpcode.opcodeOf]

theorem Laws.CanonicalOpcode.swap (rds : Reg) :
    Laws.CanonicalOpcode.Statement (.swap rds) := by
  simp [Laws.CanonicalOpcode.Statement, encode, Laws.CanonicalOpcode.opcodeOf]

theorem Laws.CanonicalOpcode.andl (rd : Reg) (l : Byte) :
    Laws.CanonicalOpcode.Statement (.andl rd l) := by
  simp [Laws.CanonicalOpcode.Statement, encode, Laws.CanonicalOpcode.opcodeOf]

theorem Laws.CanonicalOpcode.andr (rd : Reg) (rs : Reg) :
    Laws.CanonicalOpcode.Statement (.andr rd rs) := by
  simp [Laws.CanonicalOpcode.Statement, encode, Laws.CanonicalOpcode.opcodeOf]

theorem Laws.CanonicalOpcode.orl (rd : Reg) (l : Byte) :
    Laws.CanonicalOpcode.Statement (.orl rd l) := by
  simp [Laws.CanonicalOpcode.Statement, encode, Laws.CanonicalOpcode.opcodeOf]

theorem Laws.CanonicalOpcode.orr (rd : Reg) (rs : Reg) :
    Laws.CanonicalOpcode.Statement (.orr rd rs) := by
  simp [Laws.CanonicalOpcode.Statement, encode, Laws.CanonicalOpcode.opcodeOf]

theorem Laws.CanonicalOpcode.xorl (rd : Reg) (l : Byte) :
    Laws.CanonicalOpcode.Statement (.xorl rd l) := by
  simp [Laws.CanonicalOpcode.Statement, encode, Laws.CanonicalOpcode.opcodeOf]

theorem Laws.CanonicalOpcode.xorr (rd : Reg) (rs : Reg) :
    Laws.CanonicalOpcode.Statement (.xorr rd rs) := by
  simp [Laws.CanonicalOpcode.Statement, encode, Laws.CanonicalOpcode.opcodeOf]

theorem Laws.CanonicalOpcode.addl (rd : Reg) (l : Byte) :
    Laws.CanonicalOpcode.Statement (.addl rd l) := by
  simp [Laws.CanonicalOpcode.Statement, encode, Laws.CanonicalOpcode.opcodeOf]

theorem Laws.CanonicalOpcode.addr (rd : Reg) (rs : Reg) :
    Laws.CanonicalOpcode.Statement (.addr rd rs) := by
  simp [Laws.CanonicalOpcode.Statement, encode, Laws.CanonicalOpcode.opcodeOf]

theorem Laws.CanonicalOpcode.subl (rd : Reg) (l : Byte) :
    Laws.CanonicalOpcode.Statement (.subl rd l) := by
  simp [Laws.CanonicalOpcode.Statement, encode, Laws.CanonicalOpcode.opcodeOf]

theorem Laws.CanonicalOpcode.subr (rd : Reg) (rs : Reg) :
    Laws.CanonicalOpcode.Statement (.subr rd rs) := by
  simp [Laws.CanonicalOpcode.Statement, encode, Laws.CanonicalOpcode.opcodeOf]

theorem Laws.CanonicalOpcode.cmpl (rd : Reg) (l : Byte) :
    Laws.CanonicalOpcode.Statement (.cmpl rd l) := by
  simp [Laws.CanonicalOpcode.Statement, encode, Laws.CanonicalOpcode.opcodeOf]

theorem Laws.CanonicalOpcode.cmpr (rd : Reg) (rs : Reg) :
    Laws.CanonicalOpcode.Statement (.cmpr rd rs) := by
  simp [Laws.CanonicalOpcode.Statement, encode, Laws.CanonicalOpcode.opcodeOf]

end Sys2Proof
end

