-- ==== Sys2Proof/Tests/Slice0.lean ====
section
/-! SUPPORT. The model's own tests. Expected results are those of 95_test_vectors.md (the vector's name stands in the
docstring) or hand calculation from the rule named there. The witness theorems at the end show, for each statement
with hypotheses, a concrete state that meets them together. -/

namespace Sys2Proof.Tests

open Sys2Proof.Machine Sys2Proof.Safety

/-! ## States to test on -/

/-- Parameters of the tests: a stack of two entries, one device cell, one absent cell, interrupts. -/
def cfg : Config where
  subCfIsBorrow := true
  shiftFill := .zero
  cmpSigned := false
  stackDepth := 2
  dataMap := [(0xF0, .device), (0xFF, .absent)]
  irqPresent := true
  irqVector := 0x80#8
  irqSavesFlags := true
  resetPc := 0x00#8

/-- A state in mid-run: one cell of data, a stack, flags all 0, no request at any boundary. -/
def mid (pc : Addr) (stack : List Entry) : State :=
  { State.launch cfg [] [(0x80, 0x3C#8)] .zero with
    pc := pc, stack := stack, irqAfter := some false }

/-- The state with two registers set. -/
def withRegs (s : State) (a : Reg) (u : Byte) (b : Reg) (v : Byte) : State := (s.setReg a u).setReg b v

/-- The state most vectors start from. -/
def base : State := mid 0x10#8 []

/-- Flags written as ZF, CF, EF, GF, SF. -/
def fl (z c e g l : Bool) : Flags := ⟨z, c, e, g, l⟩

/-- The word is placed at `pc` and one step is taken: what the next state shows. -/
def ran {α : Type} (w : Nat) (s : State) (f : State → α) : Option α :=
  match step (s.withFetchWord 16 w) with
  | .next t => some (f t)
  | .fault _ => none
  | .refused _ => none

/-- The fault of one step. -/
def stopped (w : Nat) (s : State) : Option Fault :=
  match step (s.withFetchWord 16 w) with
  | .next _ => none
  | .fault e => some e
  | .refused _ => none

/-! ## Well-formedness: each check refuses an ill-formed term -/

theorem test_wf_accepts : Statement.wellFormed ⟨.movl, [.reg 7, .lit 255]⟩ = true := by decide

theorem test_wf_refuses_register : Statement.wellFormed ⟨.movl, [.reg 8, .lit 0]⟩ = false := by decide

theorem test_wf_refuses_literal : Statement.wellFormed ⟨.movl, [.reg 0, .lit 256]⟩ = false := by decide

theorem test_wf_refuses_jump_address : Statement.wellFormed ⟨.jmp, [.addr 256]⟩ = false := by decide

theorem test_wf_refuses_data_address : Statement.wellFormed ⟨.ldr, [.reg 0, .cell 256]⟩ = false := by decide

/-- STR takes its cell first (30_encoding.md R64). -/
theorem test_wf_refuses_operand_order : Statement.wellFormed ⟨.str, [.reg 0, .cell 1]⟩ = false := by decide

theorem test_wf_refuses_missing_operand : Statement.wellFormed ⟨.push, []⟩ = false := by decide

theorem test_wf_refuses_no_stack : Config.wellFormed { cfg with stackDepth := 0 } = false := by decide

theorem test_wf_refuses_unsorted_map :
    Config.wellFormed { cfg with dataMap := [(2, .device), (1, .absent)] } = false := by decide

theorem test_wf_refuses_map_out_of_space : Config.wellFormed { cfg with dataMap := [(256, .device)] } = false := by
  decide

theorem test_wf_refuses_ram_in_map : Config.wellFormed { cfg with dataMap := [(1, .ram)] } = false := by decide

theorem test_wf_accepts_config : Config.wellFormed cfg = true := by decide

theorem test_wf_refuses_memory_repeated : Memory.wf [(1, 0#8), (1, 1#8)] = false := by decide

theorem test_wf_refuses_program_out_of_space : Program.wf [(256, 0#16)] = false := by decide

theorem test_assemble_rejects_register : assemble ⟨.not, [.reg 8]⟩ = .error .outOfRange := by decide

theorem test_assemble_rejects_usage : assemble ⟨.not, []⟩ = .error .wrongOperands := by decide

/-! ## Decoding: words written out from the encodings of 30_encoding.md (vectors V-E1 to V-E32, V-D1 to V-D14) -/

/-- V-E1. -/
theorem test_decode_nop :
    decode 0b0000000000000000#16 = .ok .nop ∧ encode .nop = 0b0000000000000000#16 := by decide

/-- V-E2. -/
theorem test_decode_reti :
    decode 0b0000100000000000#16 = .ok .reti ∧ encode .reti = 0b0000100000000000#16 := by decide

/-- V-E3. -/
theorem test_decode_retc :
    decode 0b0001000000000000#16 = .ok .retc ∧ encode .retc = 0b0001000000000000#16 := by decide

/-- V-E4. -/
theorem test_decode_call :
    decode 0b0001100011000011#16 = .ok (.call 0xC3#8) ∧ encode (.call 0xC3#8) = 0b0001100011000011#16 := by decide

/-- V-E5. -/
theorem test_decode_jmp :
    decode 0b0010000000000000#16 = .ok (.jmp 0x00#8) ∧ encode (.jmp 0x00#8) = 0b0010000000000000#16 := by decide

/-- V-E6. -/
theorem test_decode_jz :
    decode 0b0010100011111111#16 = .ok (.jz 0xFF#8) ∧ encode (.jz 0xFF#8) = 0b0010100011111111#16 := by decide

/-- V-E7. -/
theorem test_decode_jc :
    decode 0b0011000001111110#16 = .ok (.jc 0x7E#8) ∧ encode (.jc 0x7E#8) = 0b0011000001111110#16 := by decide

/-- V-E8. -/
theorem test_decode_je :
    decode 0b0011100000000001#16 = .ok (.je 0x01#8) ∧ encode (.je 0x01#8) = 0b0011100000000001#16 := by decide

/-- V-E9. -/
theorem test_decode_jg :
    decode 0b0100000010000000#16 = .ok (.jg 0x80#8) ∧ encode (.jg 0x80#8) = 0b0100000010000000#16 := by decide

/-- V-E10. -/
theorem test_decode_js :
    decode 0b0100100001010101#16 = .ok (.js 0x55#8) ∧ encode (.js 0x55#8) = 0b0100100001010101#16 := by decide

/-- V-E11. -/
theorem test_decode_movl :
    decode 0b0101011111111111#16 = .ok (.movl 7 0xFF#8) ∧ encode (.movl 7 0xFF#8) = 0b0101011111111111#16 := by decide

/-- V-E12. -/
theorem test_decode_movr :
    decode 0b0101100011100000#16 = .ok (.movr 0 7) ∧ encode (.movr 0 7) = 0b0101100011100000#16 := by decide

/-- V-E13. -/
theorem test_decode_ldr :
    decode 0b0110001000000000#16 = .ok (.ldr 2 0x00#8) ∧ encode (.ldr 2 0x00#8) = 0b0110001000000000#16 := by decide

/-- V-E14. -/
theorem test_decode_str :
    decode 0b0110111011111110#16 = .ok (.str 0xFE#8 6) ∧ encode (.str 0xFE#8 6) = 0b0110111011111110#16 := by decide

/-- V-E15. -/
theorem test_decode_push :
    decode 0b0111011100000000#16 = .ok (.push 7) ∧ encode (.push 7) = 0b0111011100000000#16 := by decide

/-- V-E16. -/
theorem test_decode_pop :
    decode 0b0111100000000000#16 = .ok (.pop 0) ∧ encode (.pop 0) = 0b0111100000000000#16 := by decide

/-- V-E17. -/
theorem test_decode_not :
    decode 0b1000010110100000#16 = .ok (.not 5) ∧ encode (.not 5) = 0b1000010110100000#16 := by decide

/-- V-E18. -/
theorem test_decode_rr :
    decode 0b1000100000000000#16 = .ok (.rr 0) ∧ encode (.rr 0) = 0b1000100000000000#16 := by decide

/-- V-E19. -/
theorem test_decode_rl :
    decode 0b1001011111100000#16 = .ok (.rl 7) ∧ encode (.rl 7) = 0b1001011111100000#16 := by decide

/-- V-E20. -/
theorem test_decode_swap :
    decode 0b1001110010000000#16 = .ok (.swap 4) ∧ encode (.swap 4) = 0b1001110010000000#16 := by decide

/-- V-E21. -/
theorem test_decode_andl :
    decode 0b1010001110000001#16 = .ok (.andl 3 0x81#8) ∧ encode (.andl 3 0x81#8) = 0b1010001110000001#16 := by decide

/-- V-E22. -/
theorem test_decode_andr :
    decode 0b1010111100000000#16 = .ok (.andr 7 0) ∧ encode (.andr 7 0) = 0b1010111100000000#16 := by decide

/-- V-E23. -/
theorem test_decode_orl :
    decode 0b1011010000011000#16 = .ok (.orl 4 0x18#8) ∧ encode (.orl 4 0x18#8) = 0b1011010000011000#16 := by decide

/-- V-E24. -/
theorem test_decode_orr :
    decode 0b1011101010100000#16 = .ok (.orr 2 5) ∧ encode (.orr 2 5) = 0b1011101010100000#16 := by decide

/-- V-E25. -/
theorem test_decode_xorl :
    decode 0b1100011010101010#16 = .ok (.xorl 6 0xAA#8) ∧ encode (.xorl 6 0xAA#8) = 0b1100011010101010#16 := by decide

/-- V-E26. -/
theorem test_decode_xorr :
    decode 0b1100100101100000#16 = .ok (.xorr 1 3) ∧ encode (.xorr 1 3) = 0b1100100101100000#16 := by decide

/-- V-E27. -/
theorem test_decode_addl :
    decode 0b1101000001100100#16 = .ok (.addl 0 0x64#8) ∧ encode (.addl 0 0x64#8) = 0b1101000001100100#16 := by decide

/-- V-E28. -/
theorem test_decode_addr :
    decode 0b1101110111000000#16 = .ok (.addr 5 6) ∧ encode (.addr 5 6) = 0b1101110111000000#16 := by decide

/-- V-E29. -/
theorem test_decode_subl :
    decode 0b1110011100000001#16 = .ok (.subl 7 0x01#8) ∧ encode (.subl 7 0x01#8) = 0b1110011100000001#16 := by decide

/-- V-E30. -/
theorem test_decode_subr :
    decode 0b1110110001000000#16 = .ok (.subr 4 2) ∧ encode (.subr 4 2) = 0b1110110001000000#16 := by decide

/-- V-E31. -/
theorem test_decode_cmpl :
    decode 0b1111010110000000#16 = .ok (.cmpl 5 0x80#8) ∧ encode (.cmpl 5 0x80#8) = 0b1111010110000000#16 := by decide

/-- V-E32. -/
theorem test_decode_cmpr :
    decode 0b1111111011100000#16 = .ok (.cmpr 6 7) ∧ encode (.cmpr 6 7) = 0b1111111011100000#16 := by decide

/-- V-D1, V-D2, V-D3: bits 10-0 are ignored. -/
theorem test_decode_ignores_format_n : decode 0x07FF#16 = .ok .nop ∧ decode 0x0FFF#16 = .ok .reti ∧
    decode 0x1234#16 = .ok .retc := by decide

/-- V-D5, V-D6, V-D8, V-D9: the don't-care bits of formats J, RR, R and RD. -/
theorem test_decode_ignores_others : decode 0x27FF#16 = .ok (.jmp 0xFF#8) ∧ decode 0x5B5F#16 = .ok (.movr 3 2) ∧
    decode 0x7FFF#16 = .ok (.pop 7) ∧ decode 0x837F#16 = .ok (.not 3) := by decide

/-- V-D10, V-D11: the two register copies differ. -/
theorem test_decode_reserved : decode 0x8340#16 = .error (.reserved 0b10000#5 3 2) ∧
    decode 0x9FC0#16 = .error (.reserved 0b10011#5 7 6) := by decide

/-- V-D13, V-D14: bit 0 of the table's numbering is bit 0 of the word. -/
theorem test_decode_table_word : decodeTableWord 16 0xFFFF = some (.cmpr 7 7) ∧
    decodeTableWord 16 0xF81F = some (.cmpr 0 0) ∧ decodeTableWord 16 0x8340 = none := by decide

/-- 30_encoding.md R65: the encodings of INC R2, DEC R4 and CLR R6 (V-S11, V-S13, V-S15). -/
theorem test_assemble_virtual : (assemble ⟨.inc, [.reg 2]⟩).map encode = .ok 0xD201#16 ∧
    (assemble ⟨.dec, [.reg 4]⟩).map encode = .ok 0xE401#16 ∧
    (assemble ⟨.clr, [.reg 6]⟩).map encode = .ok 0x5600#16 := by decide

/-! ## Instructions, one step each -/

/-- V-J1. -/
theorem test_nop_advances : ran 0x0000 base (fun t => (t.pc, t.regs)) = some (0x11#8, base.regs) := by decide

/-- V-J3. -/
theorem test_nop_overrun : stopped 0x0000 (mid 0xFF#8 []) = some (.pcOverrun 0xFF#8) := by decide

/-- V-J4. -/
theorem test_jmp : ran 0x2010 (mid 0x03#8 []) (fun t => t.pc) = some 0x10#8 := by decide

/-- V-J5, don't-care bits set. -/
theorem test_jmp_self : ran 0x2703 (mid 0x03#8 []) (fun t => t.pc) = some 0x03#8 := by decide

/-- V-J6: only the named flag is set. -/
theorem test_jz_taken :
    ran 0x2830 { mid 0x04#8 [] with flags := fl true false false false false }
      (fun t => t.pc) = some 0x30#8 := by decide

/-- V-J7: every flag but the named one is set. -/
theorem test_jz_untaken :
    ran 0x2830 { mid 0x04#8 [] with flags := fl false true true true true } (fun t => t.pc) = some 0x05#8 := by decide

/-- V-J9: only the named flag is set. -/
theorem test_jc_taken :
    ran 0x3012 { mid 0x09#8 [] with flags := fl false true false false false }
      (fun t => t.pc) = some 0x12#8 := by decide

/-- V-J10: every flag but the named one is set. -/
theorem test_jc_untaken :
    ran 0x3012 { mid 0x09#8 [] with flags := fl true false true true true } (fun t => t.pc) = some 0x0A#8 := by decide

/-- V-J11: only the named flag is set. -/
theorem test_je_taken :
    ran 0x3840 { mid 0x02#8 [] with flags := fl false false true false false }
      (fun t => t.pc) = some 0x40#8 := by decide

/-- V-J12: every flag but the named one is set. -/
theorem test_je_untaken :
    ran 0x3840 { mid 0x02#8 [] with flags := fl true true false true true } (fun t => t.pc) = some 0x03#8 := by decide

/-- V-J13: only the named flag is set. -/
theorem test_jg_taken :
    ran 0x4008 { mid 0x0B#8 [] with flags := fl false false false true false }
      (fun t => t.pc) = some 0x08#8 := by decide

/-- V-J14: every flag but the named one is set. -/
theorem test_jg_untaken :
    ran 0x4008 { mid 0x0B#8 [] with flags := fl true true true false true } (fun t => t.pc) = some 0x0C#8 := by decide

/-- V-J15: only the named flag is set. -/
theorem test_js_taken :
    ran 0x4803 { mid 0x06#8 [] with flags := fl false false false false true }
      (fun t => t.pc) = some 0x03#8 := by decide

/-- V-J16: every flag but the named one is set. -/
theorem test_js_untaken :
    ran 0x4803 { mid 0x06#8 [] with flags := fl true true true true false } (fun t => t.pc) = some 0x07#8 := by decide

/-- V-J19. -/
theorem test_call : ran 0x1820 (mid 0x05#8 []) (fun t => (t.pc, t.stack)) = some (0x20#8, [.call 0x06#8]) := by decide

/-- 60_exceptions.md R162: PcOverrun is checked first. -/
theorem test_call_overrun_before_overflow :
    stopped 0x1820 (mid 0xFF#8 [.data 0x01#8, .data 0x02#8]) = some (.pcOverrun 0xFF#8) := by decide

/-- V-J22. -/
theorem test_retc : ran 0x1000 (mid 0x21#8 [.call 0x06#8]) (fun t => (t.pc, t.stack)) = some (0x06#8, []) := by decide

/-- V-J24. -/
theorem test_retc_mismatch :
    stopped 0x1000 (mid 0x21#8 [.data 0x11#8, .call 0x06#8]) =
      some (.stackKindMismatch 0x21#8 .call .data) := by decide

/-- V-J26. -/
theorem test_reti_restores_flags :
    ran 0x0800 { mid 0x82#8 [.irq 0x07#8 (some (fl false true false false false))] with
      flags := fl true false false false false, inService := true }
      (fun t => (t.pc, t.flags, t.inService)) = some (0x07#8, fl false true false false false, false) := by decide

/-- V-J25, without IRQ_SAVES_FLAGS. -/
theorem test_reti_keeps_flags :
    ran 0x0800 { mid 0x82#8 [.irq 0x07#8 none] with
      flags := fl true false false false false, inService := true,
      cfg := { cfg with irqSavesFlags := false } }
      (fun t => (t.flags, t.inService)) = some (fl true false false false false, false) := by decide

/-- V-M1. -/
theorem test_movl : ran 0x512A base (fun t => (t.pc, t.reg 1)) = some (0x11#8, 0x2A#8) := by decide

/-- V-M2. -/
theorem test_movl_zero_sets_no_flag :
    ran 0x5100 base (fun t => (t.reg 1, t.flags.zf)) = some (0x00#8, false) := by decide

/-- V-M3. -/
theorem test_movr :
    ran 0x5B40 (base.setReg 2 0x7F#8) (fun t => (t.reg 3, t.reg 2)) = some (0x7F#8, 0x7F#8) := by decide

/-- V-M7. -/
theorem test_ldr : ran 0x6480 base (fun t => (t.reg 4, t.pc)) = some (0x3C#8, 0x11#8) := by decide

/-- V-M9. -/
theorem test_ldr_unwritten : stopped 0x6481 base = some (.unwrittenRead 0x10#8 0x81#8) := by decide

/-- V-M10. -/
theorem test_str :
    ran 0x6D81 (base.setReg 5 0xA5#8)
      (fun t => (t.data.read 0x81#8, t.data.read 0x80#8)) = some (some 0xA5#8, some 0x3C#8) := by decide

/-- 20_memory.md R31: the register field is bits 10-8, the cell is absent. -/
theorem test_str_absent : stopped 0x68FF (base.setReg 0 0x01#8) = some (.unmappedData 0x10#8 0xFF#8) := by decide

/-- V-M13, top first. -/
theorem test_push :
    ran 0x7200 ((mid 0x10#8 [.call 0x06#8]).setReg 2 0x11#8)
      (fun t => (t.stack, t.reg 2)) = some ([.data 0x11#8, .call 0x06#8], 0x11#8) := by decide

/-- V-M14, with a depth of two. -/
theorem test_push_overflow :
    stopped 0x7200 (mid 0x10#8 [.call 0x06#8, .call 0x07#8]) = some (.stackOverflow 0x10#8) := by decide

/-- V-M16, top first. -/
theorem test_pop :
    ran 0x7B00 (mid 0x10#8 [.data 0x22#8, .data 0x11#8])
      (fun t => (t.reg 3, t.stack)) = some (0x22#8, [.data 0x11#8]) := by decide

/-- V-M18. -/
theorem test_pop_mismatch :
    stopped 0x7B00 (mid 0x10#8 [.call 0x06#8]) = some (.stackKindMismatch 0x10#8 .data .call) := by decide

/-- V-S1. -/
theorem test_not :
    ran 0x8360 { base.setReg 3 0x0F#8 with flags := fl false true false false false }
      (fun t => (t.reg 3, t.flags.zf, t.flags.cf)) = some (0xF0#8, false, true) := by decide

/-- V-S4. -/
theorem test_not_reserved : stopped 0x8340 base = some (.reservedEncoding 0x10#8 0x8340#16) := by decide

/-- V-S-RR-Carry-01-1. -/
theorem test_rr_carry :
    ran 0x8920 { base.setReg 1 0x01#8 with
      cfg := { cfg with shiftFill := .carry }, flags := fl false true false false false }
      (fun t => (t.reg 1, t.flags.cf, t.flags.zf)) = some (0x80#8, true, false) := by decide

/-- V-S-RR-Zero-01-0. -/
theorem test_rr_zero :
    ran 0x8920 (base.setReg 1 0x01#8)
      (fun t => (t.reg 1, t.flags.cf, t.flags.zf)) = some (0x00#8, true, true) := by decide

/-- V-S-RL-Rotate-80-0. -/
theorem test_rl_rotate :
    ran 0x9240 { base.setReg 2 0x80#8 with
      cfg := { cfg with shiftFill := .rotate }, flags := fl false false false false false }
      (fun t => (t.reg 2, t.flags.cf, t.flags.zf)) = some (0x01#8, true, false) := by decide

/-- V-S-RL-Carry-00-1. -/
theorem test_rl_carry :
    ran 0x9240 { base.setReg 2 0x00#8 with
      cfg := { cfg with shiftFill := .carry }, flags := fl false true false false false }
      (fun t => (t.reg 2, t.flags.cf, t.flags.zf)) = some (0x01#8, false, false) := by decide

/-- V-S7. -/
theorem test_swap :
    ran 0x9FE0 { base.setReg 7 0xA5#8 with flags := fl false true false false false }
      (fun t => (t.reg 7, t.flags.zf, t.flags.cf)) = some (0x5A#8, false, true) := by decide

/-- V-A1. -/
theorem test_andl :
    ran 0xA10F { base.setReg 1 0xA5#8 with flags := fl false true false false false }
      (fun t => (t.reg 1, t.flags.zf, t.flags.cf)) = some (0x05#8, false, true) := by decide

/-- V-A5. -/
theorem test_andr :
    ran 0xA940 (withRegs base 1 0xF0#8 2 0x0F#8)
      (fun t => (t.reg 1, t.reg 2, t.flags.zf)) = some (0x00#8, 0x0F#8, true) := by decide

/-- V-A7. -/
theorem test_orl :
    ran 0xB080 (base.setReg 0 0x01#8) (fun t => (t.reg 0, t.flags.zf)) = some (0x81#8, false) := by decide

/-- V-A10. -/
theorem test_orr :
    ran 0xBB80 (withRegs base 3 0x0A#8 4 0x50#8)
      (fun t => (t.reg 3, t.reg 4, t.flags.zf)) = some (0x5A#8, 0x50#8, false) := by decide

/-- V-A11. -/
theorem test_xorl :
    ran 0xC5FF (base.setReg 5 0xFF#8) (fun t => (t.reg 5, t.flags.zf)) = some (0x00#8, true) := by decide

/-- V-A14. -/
theorem test_xorr :
    ran 0xCEA0 (withRegs base 6 0x5A#8 5 0xFF#8) (fun t => (t.reg 6, t.flags.zf)) = some (0xA5#8, false) := by decide

/-- V-A16. -/
theorem test_addl_wraps :
    ran 0xD101 (base.setReg 1 0xFF#8)
      (fun t => (t.reg 1, t.flags.cf, t.flags.zf)) = some (0x00#8, true, true) := by decide

/-- V-A20. -/
theorem test_addl_ignores_carry :
    ran 0xD110 { base.setReg 1 0x20#8 with flags := fl false true false false false }
      (fun t => (t.reg 1, t.flags.cf)) = some (0x30#8, false) := by decide

/-- V-A21. -/
theorem test_addr :
    ran 0xD820 (withRegs base 0 0xC8#8 1 0x64#8)
      (fun t => (t.reg 0, t.flags.cf, t.flags.zf)) = some (0x2C#8, true, false) := by decide

/-- V-A22. -/
theorem test_addr_same_register :
    ran 0xD800 (base.setReg 0 0x80#8)
      (fun t => (t.reg 0, t.flags.cf, t.flags.zf)) = some (0x00#8, true, true) := by decide

/-- V-A25-True. -/
theorem test_subl_borrow :
    ran 0xE205 (base.setReg 2 0x03#8) (fun t => (t.reg 2, t.flags.cf)) = some (0xFE#8, true) := by decide

/-- V-A26-False. -/
theorem test_subl_not_borrow :
    ran 0xE205 { base.setReg 2 0x05#8 with cfg := { cfg with subCfIsBorrow := false } }
      (fun t => (t.reg 2, t.flags.cf, t.flags.zf)) = some (0x00#8, true, true) := by decide

/-- V-A31-True. -/
theorem test_subr :
    ran 0xEB20 (withRegs base 3 0x20#8 1 0x50#8)
      (fun t => (t.reg 3, t.flags.cf, t.flags.zf)) = some (0xD0#8, true, false) := by decide

/-- V-A30-False. -/
theorem test_subr_not_borrow :
    ran 0xEB20 { withRegs base 3 0x50#8 1 0x20#8 with cfg := { cfg with subCfIsBorrow := false } }
      (fun t => (t.reg 3, t.flags.cf)) = some (0x30#8, true) := by decide

/-- V-A36-False. -/
theorem test_cmpl_unsigned :
    ran 0xF07F (base.setReg 0 0x80#8)
      (fun t => (t.flags, t.reg 0)) = some (fl false false false true false, 0x80#8) := by decide

/-- V-A36-True. -/
theorem test_cmpl_signed :
    ran 0xF07F { base.setReg 0 0x80#8 with cfg := { cfg with cmpSigned := true } }
      (fun t => t.flags) = some (fl false false false false true) := by decide

/-- V-A39-False. -/
theorem test_cmpr_unsigned :
    ran 0xF940 (withRegs base 1 0xFF#8 2 0x01#8)
      (fun t => t.flags) = some (fl false false false true false) := by decide

/-- V-A40-True. -/
theorem test_cmpr_equal :
    ran 0xF920 { base.setReg 1 0x80#8 with cfg := { cfg with cmpSigned := true } }
      (fun t => t.flags) = some (fl false false true false false) := by decide

/-! ## Devices, interrupts, reset -/

/-- 20_memory.md R30: a device read answers the free value of the environment. -/
theorem test_ldr_device : exec (.ldr 4 0xF0#8) base = .next { base with
    regs := base.regs.set 4 (Config.deviceInput 0 0xF0#8), deviceReads := 1, pc := 0x11#8 } := rfl

/-- 20_memory.md R31: a device write hands the value over and leaves the data space alone. -/
theorem test_str_device :
    ran 0x6DF0 (base.setReg 5 0xA5#8) (fun t => (t.deviceWrites, t.data)) =
      some ([(0xF0, 0xA5#8)], [(0x80, 0x3C#8)]) := by decide

/-- 60_exceptions.md R167, program P4 schedule 4: the request at the boundary before the first instruction. -/
theorem test_interrupt_entry :
    (match step { State.launch cfg [] [] .zero with irqLine := [true] } with
     | .next t => some (t.pc, t.stack, t.inService)
     | .fault _ => none
     | .refused _ => none) =
      some (0x80#8, [.irq 0x00#8 (some (fl false false false false false))], true) := by decide

/-- 60_exceptions.md R169: no interrupt is accepted while one is in service. -/
theorem test_no_nesting :
    (match step { base with program := [(0x10, 0x0000#16)], irqLine := [true, true], inService := true } with
     | .next t => some (t.pc, t.inService, t.irqLine)
     | .fault _ => none
     | .refused _ => none) = some (0x11#8, true, [true]) := by decide

/-- Program P4 schedule 5, the request at every boundary: the handler is entered again right after RETI, before the
main program executes an instruction. -/
theorem test_starved :
    (match step { mid 0x03#8 [] with irqAfter := some true } with
     | .next t => some (t.pc, t.stack, t.irqAfter)
     | .fault _ => none
     | .refused _ => none) =
      some (0x80#8, [.irq 0x03#8 (some (fl false false false false false))], some true) := by decide

/-- 60_exceptions.md R164: from a launch the schedule is free, so the request at the `k`-th boundary is whatever the
environment raises there. -/
theorem test_launch_schedule_free (k : Nat) :
    (State.launch cfg [] [] .zero).requestAt k = Config.irqRequest (0 + k) := rfl

/-- Program P5c: nothing is loaded at reset, so the first fetch finds no instruction (20_memory.md R36). -/
theorem test_reset_has_no_program :
    (match step State.reset with
     | .next _ => none
     | .fault e => some e
     | .refused _ => none) = some (.noInstruction 0x00#8) := by decide

/-- The first instruction after reset, once it is loaded: MOVL R1, 0x2A (41_register_memory.md R90). -/
theorem test_first_after_reset : ran 0x512A State.reset (fun t => (t.pc, t.reg 1)) = some (0x01#8, 0x2A#8) := by
  decide

/-- 70_reset_and_hazards.md R181. -/
theorem test_reset_event :
    (resetEvent .zero (mid 0x21#8 [.call 0x06#8])).pc = 0x00#8 ∧
      (resetEvent .zero (mid 0x21#8 [.call 0x06#8])).stack = [] ∧
      (resetEvent .zero (mid 0x21#8 [.call 0x06#8])).data = [] := by decide

/-! ## Witnesses: the hypotheses of each statement hold together somewhere -/

/-- One program word at the state's `pc`. -/
def withWord (s : State) (w : InstrWord) : State := { s with program := s.program.load s.pc w }

/-- No interrupt is accepted where the schedule raises no request. -/
theorem not_accepted {s : State} (h : s.requestAt 0 = false) : ¬ Spec.Accepted s := by
  rintro ⟨_, hr, _⟩
  rw [h] at hr
  cases hr

/-- A state at whose boundary the request is raised. -/
def asked (stack : List Entry) : State := { mid 0x10#8 stack with irqLine := [true] }

/-- A main program at 0x03 with the request raised at every boundary, its handler a RETI. -/
def starved : State := { mid 0x03#8 [] with program := [(0x80, 0x0800#16)], irqAfter := some true }

/-- A state that meets the invariant with an interrupt in service. -/
def serving : State :=
  { mid 0x82#8 [.irq 0x07#8 (some (fl false true false false false))] with inService := true }

theorem witness_DecodeEncodeRoundTrip : decode 0xFFFF#16 = .ok (.cmpr 7 7) := by decide

theorem witness_DecodeFollowsOpcodeMap : ∀ op : BitVec 5,
    (op ++ 0x7FF#11).extractLsb' 11 5 = op ∧ (op ++ 0x7FF#11).extractLsb' 8 3 = BitVec.ofNat 3 (7 : Reg) ∧
    (op ++ 0x7FF#11).extractLsb' 5 3 = BitVec.ofNat 3 (7 : Reg) ∧ (op ++ 0x7FF#11).extractLsb' 0 8 = 0xFF#8 := by
  decide

/-- The clause of the reserved words, at its first and last opcode. -/
theorem witness_DecodeFollowsOpcodeMap_reserved : ∀ op : BitVec 5, op = 16#5 ∨ op = 19#5 →
    16 ≤ op.toNat ∧ op.toNat ≤ 19 ∧ (7 : Reg) ≠ 6 ∧ (op ++ 0x7C0#11).extractLsb' 8 3 = BitVec.ofNat 3 (7 : Reg) ∧
    (op ++ 0x7C0#11).extractLsb' 5 3 = BitVec.ofNat 3 (6 : Reg) := by decide

theorem witness_DontCareBitsAreIgnored :
    0x0000#16 &&& ~~~(Spec.dontCare 0x0000#16) = 0x07FF#16 &&& ~~~(Spec.dontCare 0x07FF#16) := by decide

theorem witness_ReservedWordsFault :
    (withWord base 0x8340#16).program.word (withWord base 0x8340#16).pc = some 0x8340#16 ∧
    decode 0x8340#16 = .error (.reserved 0b10000#5 3 2) ∧ ¬ Spec.Accepted (withWord base 0x8340#16) :=
  ⟨by decide, by decide, not_accepted rfl⟩

theorem witness_CanonicalEncodingFormula :
    ∃ o ∈ (Statement.mk .movl [.reg 8, .lit 256]).operands,
      (∃ n, o = .reg n ∧ 8 ≤ n) ∨ (∃ n, (o = .lit n ∨ o = .addr n ∨ o = .cell n) ∧ 256 ≤ n) :=
  ⟨.reg 8, by decide, .inl ⟨8, rfl, by decide⟩⟩

theorem witness_StepRunsDecodedInstruction :
    (withWord base 0x0000#16).program.word (withWord base 0x0000#16).pc = some 0x0000#16 ∧
    decode 0x0000#16 = .ok .nop ∧ ¬ Spec.Accepted (withWord base 0x0000#16) :=
  ⟨by decide, by decide, not_accepted rfl⟩

theorem witness_LoadedWordRunsNext : decodeTableWord 16 0xD101 = some (.addl 1 0x01#8) := by decide

/-- Room for one more entry, and none. -/
theorem witness_InterruptEntry :
    (Spec.Accepted (asked [.data 0x01#8]) ∧ (asked [.data 0x01#8]).stack.length ≠ cfg.stackDepth) ∧
    (Spec.Accepted (asked [.data 0x01#8, .data 0x02#8]) ∧
      (asked [.data 0x01#8, .data 0x02#8]).stack.length = cfg.stackDepth) :=
  ⟨⟨⟨rfl, rfl, rfl⟩, by decide⟩, ⟨⟨rfl, rfl, rfl⟩, by decide⟩⟩

/-- The first clause with and without acceptance, the second, the third and the fourth at the least depth. -/
theorem witness_InterruptAcceptedExactlyWhen :
    (∃ t, step (asked []) = .next t ∧ (asked []).inService = false) ∧
    (∃ t, step (withWord base 0x0000#16) = .next t ∧ (withWord base 0x0000#16).inService = false) ∧
    ((withWord serving 0x0800#16).inService = true ∧
      (withWord serving 0x0800#16).program.word (withWord serving 0x0800#16).pc = some 0x0800#16 ∧
      decode 0x0800#16 = .ok .reti) ∧
    (Monitor.mk base (some (.pcOverrun 0xFF#8))).status = some (.pcOverrun 0xFF#8) ∧
    (Config.irqPresent { cfg with stackDepth := 1 } = true ∧ 1 ≤ Config.stackDepth { cfg with stackDepth := 1 }) :=
  ⟨⟨_, rfl, rfl⟩, ⟨_, rfl, rfl⟩, by decide, rfl, by decide⟩

/-- The two clauses on `pc` that the statements about sequential instructions have, at their boundary: `pc` = 0xFE
and `pc` = 0xFF. They serve NopOnlyAdvances, MovlLoadsLiteral, MovrCopiesRegister, NotAndSwapResults, ShiftResults,
LogicLaw, AdditionLaw, SubtractionLaw, ComparisonLaw and ClrClearsRegister, whose other operands are free. -/
theorem witness_sequential : (mid 0xFE#8 []).pc ≠ 0xFF#8 ∧ (mid 0xFF#8 []).pc = 0xFF#8 := by decide

/-- NopOnlyAdvances, JmpGoesToItsAddress, CallPushesReturnAddress, RetcPopsReturnAddress, MovlLoadsLiteral,
LdrReadsCell and PopUnstacksRegister: a word of each opcode, its don't-care bits set. -/
theorem witness_words_by_opcode :
    (0x07FF#16).extractLsb' 11 5 = 0b00000#5 ∧ (0x27FF#16).extractLsb' 11 5 = 0b00100#5 ∧
    (0x1FFF#16).extractLsb' 11 5 = 0b00011#5 ∧ (0x17FF#16).extractLsb' 11 5 = 0b00010#5 ∧
    (0x57FF#16).extractLsb' 11 5 = 0b01010#5 ∧ (0x67FF#16).extractLsb' 11 5 = 0b01100#5 ∧
    (0x7FFF#16).extractLsb' 11 5 = 0b01111#5 := by decide

theorem witness_CallPushesReturnAddress :
    ((mid 0xFE#8 [.data 0x01#8]).pc ≠ 0xFF#8 ∧ (mid 0xFE#8 [.data 0x01#8]).stack.length ≠ cfg.stackDepth) ∧
    (mid 0xFF#8 []).pc = 0xFF#8 ∧
    ((mid 0xFE#8 [.data 0x01#8, .data 0x02#8]).pc ≠ 0xFF#8 ∧
      (mid 0xFE#8 [.data 0x01#8, .data 0x02#8]).stack.length = cfg.stackDepth) := by decide

/-- A stack of each kind of top entry and the empty one: RetcPopsReturnAddress, RetiReturnsFromInterrupt,
PopUnstacksRegister, PushAndPopPrimitives, BalancedSubroutineReturns. -/
theorem witness_stacks :
    (mid 0x21#8 [.call 0x06#8]).stack = .call 0x06#8 :: [] ∧ (mid 0x21#8 []).stack = [] ∧
    (mid 0x21#8 [.data 0x11#8]).stack = .data 0x11#8 :: [] ∧
    (mid 0x21#8 [.irq 0x07#8 none]).stack = .irq 0x07#8 none :: [] := by decide

theorem witness_RetiReturnsFromInterrupt :
    (serving.stack = .irq 0x07#8 (some (fl false true false false false)) :: [] ∧ cfg.irqSavesFlags = true) ∧
    Config.irqSavesFlags { cfg with irqSavesFlags := false } = false := by decide

/-- Each flag set and each cleared, at the last address. -/
theorem witness_ConditionalJumps :
    (∀ n : FlagName, (fl true true true true true).get n = true) ∧
    (∀ n : FlagName, (fl false false false false false).get n = false) ∧
    (mid 0xFE#8 []).pc ≠ 0xFF#8 ∧ (mid 0xFF#8 []).pc = 0xFF#8 :=
  ⟨fun n => by cases n <;> rfl, fun n => by cases n <;> rfl, by decide, by decide⟩

/-- A cell with a value, one without, a device cell and an absent cell, at `pc` = 0xFE and 0xFF: LdrReadsCell,
StrWritesCell, FaultOrder. -/
theorem witness_LdrReadsCell : ∀ p : Addr, p = 0xFE#8 ∨ p = 0xFF#8 →
    ((mid p []).kindAt 0x80#8 = .ram ∧ (mid p []).data.read 0x80#8 = some 0x3C#8) ∧
    ((mid p []).kindAt 0x81#8 = .ram ∧ (mid p []).data.read 0x81#8 = none) ∧
    (mid p []).kindAt 0xF0#8 = .device ∧ (mid p []).kindAt 0xFF#8 = .absent := by
  rintro p (rfl | rfl) <;> decide

theorem witness_StrWritesCell :
    (mid 0xFF#8 []).kindAt 0x80#8 ≠ .absent ∧ (mid 0xFF#8 []).pc = 0xFF#8 ∧ (0x80#8 : Addr) ≠ 0x81#8 := by decide

/-- The last free entry and the full stack, at `pc` = 0xFE and 0xFF: PushStacksRegister, PushAndPopPrimitives,
PushThenPopCopies, FaultOrder. -/
theorem witness_PushStacksRegister : ∀ p : Addr, p = 0xFE#8 ∨ p = 0xFF#8 →
    (mid p [.data 0x01#8]).stack.length ≠ cfg.stackDepth ∧
    (mid p [.data 0x01#8, .data 0x02#8]).stack.length = cfg.stackDepth := by
  rintro p (rfl | rfl) <;> decide

theorem witness_PopUnstacksRegister_after_push :
    ∃ t, exec (.push 2) (mid 0x10#8 [.data 0x01#8]) = .next t ∧ t.pc ≠ 0xFF#8 := ⟨_, rfl, by decide⟩

/-- ClrClearsRegister and VirtualInstructionsAreTheirExpansions: the last register. -/
theorem witness_ClrClearsRegister : 7 < 8 ∧ (mid 0xFE#8 []).pc ≠ 0xFF#8 := by decide

/-- The logic, addition, subtraction and comparison laws: operands with different top bits, both settings of
CMP_SIGNED. -/
theorem witness_ComparisonLaw :
    ((mid 0xFE#8 []).setReg 1 0x80#8).reg 1 = 0x80#8 ∧ (0x80#8).getLsbD 7 = true ∧ (0x7F#8).getLsbD 7 = false ∧
    cfg.cmpSigned = false ∧ Config.cmpSigned { cfg with cmpSigned := true } = true := by decide

/-- A sum that lies in -128..127 at its ends: the last clause of AdditionLaw. -/
theorem witness_AdditionLaw :
    (-128 ≤ (0x80#8).toInt + (0x00#8).toInt ∧ (0x80#8).toInt + (0x00#8).toInt ≤ 127) ∧
    (-128 ≤ (0x7F#8).toInt + (0x00#8).toInt ∧ (0x7F#8).toInt + (0x00#8).toInt ≤ 127) := by decide

theorem witness_SequentialAdvanceNeverWraps :
    (Spec.sequential (.addl 1 0x01#8) = true ∧ ∃ t, exec (.addl 1 0x01#8) { base with pc := 0x00#8 } = .next t) ∧
    (mid 0xFF#8 []).pc = 0xFF#8 ∧ (∀ n : FlagName, (mid 0xFF#8 []).flags.get n = false) :=
  ⟨⟨rfl, _, rfl⟩, rfl, fun n => by cases n <;> rfl⟩

theorem witness_ProgramCounterTable :
    (∃ t, exec (.call 0x20#8) base = .next t) ∧ (∃ t, enterInterrupt base = .next t) ∧
    (∃ t, exec (.jmp 0x20#8) (withWord base 0x2020#16) = .next t ∧ ¬ Spec.Accepted t) ∧
    (∃ t, exec (.jmp 0x10#8) (withWord base 0x2010#16) = .next t ∧ t.program.word t.pc = some 0x2010#16 ∧
      decode 0x2010#16 = .ok (.jmp 0x10#8) ∧ ¬ Spec.Accepted t) :=
  ⟨⟨_, rfl⟩, ⟨_, rfl⟩, ⟨_, rfl, not_accepted rfl⟩, ⟨_, rfl, by decide, by decide, not_accepted rfl⟩⟩

/-- OnlyTheDestinationRegisterChanges, OnlyTheNamedFlagsChange, StoresChangeOnlyByTheirWriters and
OtherCellsReadAsBefore: a next state, a register that is not the destination, a flag that is not written, an
address that is not stored to. -/
theorem witness_frames :
    (∃ t, exec (.addl 1 0x01#8) base = .next t) ∧ Spec.destination (.addl 1 0x01#8) ≠ some 2 ∧
    FlagName.ef ∉ Spec.flagsWritten true (.addl 1 0x01#8) ∧
    (∃ t, exec (.str 0x80#8 1) base = .next t) ∧ Spec.storeAddress (.str 0x80#8 1) ≠ some 0x81#8 ∧
    Spec.usesStack (.str 0x80#8 1) = false :=
  ⟨⟨_, rfl⟩, by decide, by decide, ⟨_, rfl⟩, by decide, rfl⟩

/-- StepKeepsProgramAndParameters: a step of an instruction and a step into an interrupt. -/
theorem witness_StepKeepsProgramAndParameters :
    (∃ t, step (withWord base 0x0000#16) = .next t) ∧ (∃ t, step (asked []) = .next t) := ⟨⟨_, rfl⟩, ⟨_, rfl⟩⟩

theorem witness_DataSpaceIsReadOnlyByLdr :
    (∀ r a, (Instr.nop) ≠ .ldr r a) ∧ (∀ a r, (Instr.nop) ≠ .str a r) := ⟨nofun, nofun⟩

/-- A state that meets the invariant, with an interrupt in service and a step. -/
theorem witness_StepKeepsInvariant :
    Inv (withWord serving 0x0800#16) ∧ ∃ t, step (withWord serving 0x0800#16) = .next t :=
  ⟨⟨by decide, by decide, by decide, by decide, by decide, by decide⟩, _, rfl⟩

/-- OnlyTheListedFlagsAreRead: the flag a jump reads agrees and the others differ, with a next state and with a
fault; the parameters of the other two clauses. -/
theorem witness_OnlyTheListedFlagsAreRead :
    Inv serving ∧ (∀ n ∈ Spec.flagsRead serving.cfg.shiftFill (.jz 0x30#8),
      (fl false true true true true).get n = serving.flags.get n) ∧
    (∃ t, exec (.jz 0x30#8) serving = .next t) ∧
    (Inv (mid 0xFF#8 []) ∧ ∃ e, exec (.jz 0x30#8) (mid 0xFF#8 []) = .fault e) ∧
    ((mid 0xFE#8 []).pc ≠ 0xFF#8 ∧ (0x30#8 : Addr) ≠ (mid 0xFE#8 []).pc + 1#8) ∧
    Config.shiftFill { cfg with shiftFill := .carry } = .carry :=
  ⟨⟨by decide, by decide, by decide, by decide, by decide, by decide⟩, by decide, ⟨_, rfl⟩,
    ⟨⟨by decide, by decide, by decide, by decide, by decide, by decide⟩, _, rfl⟩, by decide, rfl⟩

theorem witness_LaunchStatesSatisfyInvariant :
    Program.wf [(0, 0x0000#16), (255, 0x0000#16)] = true ∧ Memory.wf [(0, 0x00#8), (255, 0x00#8)] = true := by decide

theorem witness_RetiFaultsWithoutInterrupts :
    Inv { mid 0x82#8 [.call 0x06#8] with cfg := { cfg with irqPresent := false } } ∧
    Config.irqPresent { cfg with irqPresent := false } = false :=
  ⟨⟨by decide, by decide, by decide, by decide, by decide, by decide⟩, rfl⟩

theorem witness_InServiceBit :
    (∃ t, enterInterrupt base = .next t) ∧ (∃ t, exec .reti serving = .next t) ∧ (Instr.nop) ≠ .reti ∧
    (serving.inService = true ∧ ∃ t, step (withWord serving 0x0800#16) = .next t) ∧
    (∃ t, step { withWord base 0x0000#16 with cfg := { cfg with irqPresent := false } } = .next t) :=
  ⟨⟨_, rfl⟩, ⟨_, rfl⟩, nofun, ⟨rfl, _, rfl⟩, ⟨_, rfl⟩⟩

/-- A store, one step of a NOP and a state in which the load completes. -/
theorem witness_LoadReturnsMostRecentStore :
    ∃ t u, (mid 0x10#8 []).kindAt 0x80#8 = .ram ∧
      exec (.str 0x80#8 1) { mid 0x10#8 [] with program := [(0x11, 0x0000#16)] } = .next t ∧
      Spec.noStoreTo 0x80#8 1 t ∧ Host.Core.run core 1 t = .next u ∧ u.pc ≠ 0xFF#8 := by
  refine ⟨_, _, by decide, rfl, ⟨?_, fun _ _ => trivial⟩, rfl, by decide⟩
  intro _ w i hw hi
  have hw' : w = 0x0000#16 := Option.some.inj (hw.symm.trans (by decide))
  subst hw'
  have hi' : i = .nop := Except.ok.inj (hi.symm.trans (by decide))
  subst hi'
  decide

/-- InterruptReturnsToInterruptedProgram: an accepted interrupt with room, and a later state with its stack. -/
theorem witness_InterruptReturns :
    Spec.Accepted (asked []) ∧ (asked []).stack.length ≠ cfg.stackDepth ∧
    ∃ t, step (asked []) = .next t ∧ { t with pc := 0x83#8 }.stack = t.stack ∧ { t with pc := 0x83#8 }.cfg = t.cfg :=
  ⟨⟨rfl, rfl, rfl⟩, by decide, _, rfl, rfl, rfl⟩

theorem witness_BalancedSubroutineReturns :
    ∃ t, exec (.call 0x20#8) base = .next t ∧ { t with pc := 0x21#8 }.stack = t.stack := ⟨_, rfl, rfl⟩

/-- PushThenPopCopies, NotAndSwapAreInvolutions, RotationsComeRound, EquivalentInstructions: the last address from
which the instructions complete, and the parameters. -/
theorem witness_sequences :
    (mid 0xFD#8 [.data 0x01#8]).pc.toNat + 2 ≤ 255 ∧ (mid 0xFD#8 [.data 0x01#8]).stack.length ≠ cfg.stackDepth ∧
    (mid 0xF7#8 []).pc.toNat + 8 ≤ 255 ∧ (mid 0xF6#8 []).pc.toNat + 9 ≤ 255 ∧
    Config.shiftFill { cfg with shiftFill := .rotate } = .rotate ∧ cfg.shiftFill = .zero ∧
    Config.shiftFill { cfg with shiftFill := .carry } = .carry := by decide

/-- Outside a handler under a schedule that raises nothing more, and in a handler with the request raised for ever. -/
theorem witness_EndedRunStays :
    runEnded { withWord (mid 0x04#8 []) 0x2004#16 with irqLine := [false, false] } ∧
    runEnded { withWord serving 0x2082#16 with irqAfter := some true } := by
  refine ⟨⟨by decide, .inr (.inr fun k => ?_)⟩, by decide, .inr (.inl rfl)⟩
  match k with
  | 0 => rfl
  | 1 => rfl
  | _ + 2 => rfl

theorem witness_RecordedFaultIsFinal :
    ((Monitor.mk (withWord base 0x0000#16) none).status = none ∧
      ∃ t, step (withWord base 0x0000#16) = .next t) ∧
    ((Monitor.mk base none).status = none ∧ ∃ f, step base = .fault f) ∧
    (Monitor.mk base (some (.noInstruction 0x10#8))).status = some (.noInstruction 0x10#8) :=
  ⟨⟨rfl, _, rfl⟩, ⟨rfl, _, rfl⟩, rfl⟩

theorem witness_FaultOrder :
    (¬ Spec.Accepted base ∧ base.program.word base.pc = none) ∧
    (mid 0xFF#8 [.call 0x06#8]).stack = .call 0x06#8 :: [] ∧
    ((mid 0xFF#8 [.data 0x01#8, .data 0x02#8]).pc = 0xFF#8 ∧
      (mid 0xFF#8 [.data 0x01#8, .data 0x02#8]).stack.length = cfg.stackDepth) :=
  ⟨⟨not_accepted rfl, by decide⟩, rfl, by decide⟩

/-- The first clause: RETI completes with the request raised. The second: two steps from a main program that is
starved, into the handler and back by RETI. -/
theorem witness_EndlessRequestsStarveTheProgram :
    (∃ t, exec .reti { serving with irqAfter := some true } = .next t) ∧
    ((∀ j, starved.requestAt j = true) ∧ starved.cfg.irqPresent = true ∧ starved.inService = false ∧
      ∃ t, Host.Core.run core 2 starved = .next t ∧ t.inService = false) :=
  ⟨⟨_, rfl⟩, fun _ => rfl, rfl, rfl, _, rfl, rfl⟩

end Sys2Proof.Tests
end

/-! SUPPORT. What a shared operation answers, one equation per case, and the fields it does not read. -/

namespace Sys2Proof.Machine

/-! ## The stack and the data space, case by case (10_state.md R25, R26; 20_memory.md R30, R31) -/

theorem pushEntry_of_full {e : Entry} {s : State} (h : s.stack.length = s.cfg.stackDepth) :
    pushEntry e s = .error (.stackOverflow s.pc) := if_pos h

theorem pushEntry_of_room {e : Entry} {s : State} (h : s.stack.length ≠ s.cfg.stackDepth) :
    pushEntry e s = .ok { s with stack := e :: s.stack } := if_neg h

section
variable {α : Type} {k : EntryKind} {payload : Entry → Option α} {s : State} {e : Entry} {rest : List Entry}

theorem popEntry_of_empty (hs : s.stack = []) :
    popEntry k payload s = .error (.stackUnderflow s.pc) := by
  simp [popEntry, hs]

theorem popEntry_of_match {p : α} (hs : s.stack = e :: rest) (hp : payload e = some p) :
    popEntry k payload s = .ok (p, { s with stack := rest }) := by
  simp [popEntry, hs, hp]

theorem popEntry_of_mismatch (hs : s.stack = e :: rest) (hp : payload e = none) :
    popEntry k payload s = .error (.stackKindMismatch s.pc k e.kind) := by
  simp [popEntry, hs, hp]

end

theorem memRead_of_ram {a : Addr} {s : State} {v : Byte} (hk : s.kindAt a = .ram) (hv : s.data.read a = some v) :
    memRead a s = .ok (v, s) := by
  simp [memRead, hk, hv]

theorem memRead_of_device {a : Addr} {s : State} (hk : s.kindAt a = .device) :
    memRead a s = .ok (Config.deviceInput s.deviceReads a, { s with deviceReads := s.deviceReads + 1 }) := by
  simp [memRead, hk]

theorem memWrite_of_ram {a : Addr} {s : State} (v : Byte) (hk : s.kindAt a = .ram) :
    memWrite a v s = .ok { s with data := s.data.write a v } := by
  simp [memWrite, hk]

theorem memWrite_of_device {a : Addr} {s : State} (v : Byte) (hk : s.kindAt a = .device) :
    memWrite a v s = .ok { s with deviceWrites := (a.toNat, v) :: s.deviceWrites } := by
  simp [memWrite, hk]

/-! ## Program counter -/

/-- The `pc` after a conditional jump that goes on (10_state.md R14). -/
theorem pc_of_branchOn {n : FlagName} {a : Addr} {s t : State} (h : branchOn n a s = .next t) :
    t.pc = if s.flags.get n then a else s.pc + 1#8 := by
  rcases next_of_branchOn h with ⟨hn, rfl⟩ | ⟨hn, -, rfl⟩ <;> simp [hn]

theorem branchOn_of_set {n : FlagName} {a : Addr} {s : State} (h : s.flags.get n = true) :
    branchOn n a s = .next { s with pc := a } := by
  simp [branchOn, h]

theorem branchOn_of_clear {n : FlagName} {a : Addr} {s : State} (h : s.flags.get n = false) :
    branchOn n a s = advance s := by
  simp [branchOn, h]

/-- Falling off the end after a primitive that answered (10_state.md R15). -/
theorem andThen_advance_of_eq {α : Type} {x : Except Fault α} {k : α → State} {a : α} (hx : x = .ok a)
    (hpc : (k a).pc = 0xFF#8) : andThen x (fun a => advance (k a)) = .fault (.pcOverrun 0xFF#8) := by
  rw [hx, andThen_ok, advance_of_eq hpc]

/-! ## Interrupts and steps -/

/-- The model accepts an interrupt where the spec does (60_exceptions.md R165). -/
theorem acceptsInterrupt_iff (s : State) : s.acceptsInterrupt = true ↔ Spec.Accepted s := by
  simp [State.acceptsInterrupt, State.requestRaised, Spec.Accepted, and_assoc]

theorem acceptsInterrupt_of_not_accepted {s : State} (h : ¬ Spec.Accepted s) : s.acceptsInterrupt = false :=
  Bool.eq_false_iff.mpr fun ha => h ((acceptsInterrupt_iff s).mp ha)

/-- Where no interrupt is accepted, a step executes the instruction at `pc` (00_scope.md R8). -/
theorem step_eq_exec {s : State} {w : InstrWord} {i : Instr} (ha : ¬ Spec.Accepted s)
    (hw : s.program.word s.pc = some w) (hi : decode w = .ok i) : step s = exec i (Spec.pastBoundary s) := by
  have hf : fetch s.passBoundary = .ok w := by simp [fetch, hw]
  have hd : decodeFetched w s.passBoundary = .ok i := by simp [decodeFetched, hi]
  simp only [step, acceptsInterrupt_of_not_accepted ha, hf, hd, andThen_ok]
  rfl

/-- A step that accepts no interrupt and goes on has executed the instruction at `pc`. -/
theorem exec_of_step {s t : State} (ha : ¬ Spec.Accepted s) (h : step s = .next t) :
    ∃ w i, s.program.word s.pc = some w ∧ decode w = .ok i ∧ exec i (Spec.pastBoundary s) = .next t := by
  rcases next_of_step h with ⟨hacc, -⟩ | ⟨-, hexec⟩
  · exact absurd ((acceptsInterrupt_iff s).mp hacc) ha
  · exact hexec

/-! ## Fields the operations do not read -/

/-- The flags, in_service and the instruction space changed, every other field as it was. -/
def State.remap (φ : Flags → Flags) (β : Bool → Bool) (π : Program → Program) (s : State) : State :=
  { s with flags := φ s.flags, inService := β s.inService, program := π s.program }

section
variable {φ : Flags → Flags} {β : Bool → Bool} {π : Program → Program}

/-- If what follows a primitive commutes with a change of state, so does the whole. -/
theorem andThen_map {α : Type} {x : Except Fault α} {h : α → α} {g : State → State} {k : α → Result}
    (hk : ∀ a, k (h a) = Spec.mapNext g (k a)) : andThen (x.map h) k = Spec.mapNext g (andThen x k) := by
  cases x with
  | ok a => exact hk a
  | error f => rfl

theorem memRead_remap (a : Addr) (s : State) :
    memRead a (s.remap φ β π) = (memRead a s).map (Prod.map id (State.remap φ β π)) := by
  have hkind : (s.remap φ β π).kindAt a = s.kindAt a := rfl
  have hread : (s.remap φ β π).data.read a = s.data.read a := rfl
  unfold memRead
  rw [hkind, hread]
  cases s.kindAt a with
  | ram => cases s.data.read a <;> rfl
  | device => rfl
  | absent => rfl

theorem memWrite_remap (a : Addr) (v : Byte) (s : State) :
    memWrite a v (s.remap φ β π) = (memWrite a v s).map (State.remap φ β π) := by
  have hkind : (s.remap φ β π).kindAt a = s.kindAt a := rfl
  unfold memWrite
  rw [hkind]
  cases s.kindAt a <;> rfl

theorem pushEntry_remap (e : Entry) (s : State) :
    pushEntry e (s.remap φ β π) = (pushEntry e s).map (State.remap φ β π) := by
  by_cases h : s.stack.length = s.cfg.stackDepth
  · rw [pushEntry_of_full h]
    exact pushEntry_of_full h
  · rw [pushEntry_of_room h]
    exact pushEntry_of_room h

theorem popEntry_remap {α : Type} (k : EntryKind) (payload : Entry → Option α) (s : State) :
    popEntry k payload (s.remap φ β π) = (popEntry k payload s).map (Prod.map id (State.remap φ β π)) := by
  cases hs : s.stack with
  | nil =>
    rw [popEntry_of_empty hs]
    exact popEntry_of_empty hs
  | cons e rest =>
    cases hp : payload e with
    | none =>
      rw [popEntry_of_mismatch hs hp]
      exact popEntry_of_mismatch hs hp
    | some p =>
      rw [popEntry_of_match hs hp]
      exact popEntry_of_match hs hp

theorem advance_remap (s : State) :
    advance (s.remap φ β π) = Spec.mapNext (State.remap φ β π) (advance s) := by
  by_cases h : s.pc = 0xFF#8
  · rw [advance_of_eq h]
    exact advance_of_eq h
  · rw [advance_of_ne h]
    exact advance_of_ne h

theorem advance_of_eq_remap {s t : State} (h : t = s.remap φ β π) :
    advance t = Spec.mapNext (State.remap φ β π) (advance s) := by
  rw [h, advance_remap]

theorem branchOn_remap (n : FlagName) (a : Addr) (s : State) :
    branchOn n a (s.remap id β π) = Spec.mapNext (State.remap id β π) (branchOn n a s) := by
  cases h : s.flags.get n with
  | true =>
    rw [branchOn_of_set h]
    exact branchOn_of_set h
  | false =>
    rw [branchOn_of_clear h, ← advance_remap]
    exact branchOn_of_clear h

theorem execCall_remap (a : Addr) (s : State) :
    execCall a (s.remap φ β π) = Spec.mapNext (State.remap φ β π) (execCall a s) := by
  have hpc : (s.remap φ β π).pc = s.pc := rfl
  unfold execCall
  rw [hpc]
  split
  · rfl
  · rw [pushEntry_remap]
    exact andThen_map fun _ => rfl

/-- The instruction neither reads nor writes a flag under any parameters (10_state.md R17, R18). -/
def flagless (i : Instr) : Bool := (Spec.flagsRead .carry i).isEmpty && (Spec.flagsWritten true i).isEmpty

/-- An instruction other than RETI does the same whatever in_service and the instruction space hold, and, if it
neither reads nor writes a flag, whatever the flags hold (10_state.md R18, R23, R27). -/
theorem exec_remap (i : Instr) (s : State) (hi : i ≠ .reti) (hφ : flagless i = false → φ = id) :
    exec i (s.remap φ β π) = Spec.mapNext (State.remap φ β π) (exec i s) := by
  cases i with
  | reti => exact absurd rfl hi
  | nop => exact advance_remap s
  | movl rd l => exact advance_remap (s.setReg rd l)
  | movr rd rs => exact advance_remap (s.setReg rd (s.reg rs))
  | jmp a => rfl
  | call a => exact execCall_remap a s
  | retc =>
    show andThen (popCall (s.remap φ β π)) _ = _
    rw [popCall, popEntry_remap]
    exact andThen_map fun _ => rfl
  | ldr rd a =>
    show andThen (memRead a (s.remap φ β π)) _ = _
    rw [memRead_remap]
    exact andThen_map fun p => advance_remap (p.2.setReg rd p.1)
  | str a rs =>
    show andThen (memWrite a (s.reg rs) (s.remap φ β π)) _ = _
    rw [memWrite_remap]
    exact andThen_map advance_remap
  | push rs =>
    show andThen (pushEntry (.data (s.reg rs)) (s.remap φ β π)) _ = _
    rw [pushEntry_remap]
    exact andThen_map advance_remap
  | pop rd =>
    show andThen (popData (s.remap φ β π)) _ = _
    rw [popData, popEntry_remap]
    exact andThen_map fun p => advance_remap (p.2.setReg rd p.1)
  | jz a | jc a | je a | jg a | js a =>
    obtain rfl := hφ rfl
    exact branchOn_remap _ a s
  | not r | swap r | rr r | rl r =>
    obtain rfl := hφ rfl
    exact advance_of_eq_remap rfl
  | andl rd b | andr rd b | orl rd b | orr rd b | xorl rd b | xorr rd b | addl rd b | addr rd b
  | subl rd b | subr rd b | cmpl rd b | cmpr rd b =>
    obtain rfl := hφ rfl
    exact advance_of_eq_remap rfl

/-- RETI depends neither on in_service, which it clears, nor on the instruction space (40_jump.md R72). -/
theorem execReti_remap (s : State) :
    execReti (s.remap id β π) = Spec.mapNext (State.remap id id π) (execReti s) := by
  show andThen (popIrq (s.remap id β π)) _ = Spec.mapNext _ (andThen (popIrq s) _)
  rw [popIrq, popEntry_remap, popIrq]
  cases popEntry .irq Entry.asIrq s <;> rfl

end

end Sys2Proof.Machine

/-! CLAIMS. Push, Pop, the sequential advance and the table of the new `pc`. -/

namespace Sys2Proof.Machine

/-- Settles O32: each pop is one of the three cases of `popEntry`. -/
theorem pushAndPopPrimitives : Obligations.PushAndPopPrimitives := by
  refine ⟨fun e s => ⟨pushEntry_of_full, pushEntry_of_room⟩, fun s hs => ?_, fun s rest v hs => ?_,
    fun s rest a hs => ?_, fun s rest a f hs => ?_⟩
  · exact ⟨popEntry_of_empty hs, popEntry_of_empty hs, popEntry_of_empty hs⟩
  · exact ⟨popEntry_of_match hs rfl, popEntry_of_mismatch hs rfl, popEntry_of_mismatch hs rfl⟩
  · exact ⟨popEntry_of_mismatch hs rfl, popEntry_of_match hs rfl, popEntry_of_mismatch hs rfl⟩
  · exact ⟨popEntry_of_mismatch hs rfl, popEntry_of_mismatch hs rfl, popEntry_of_match hs rfl⟩

/-- A sequential instruction that completes at 0x00 has every check but the advance behind it, and those checks do
not read `pc`; an instruction without checks evaluates to the fault (10_state.md R15, 60_exceptions.md R162). -/
theorem exec_sequential_at_top {i : Instr} {s t : State} (hi : Spec.sequential i = true)
    (h : exec i { s with pc := 0x00#8 } = .next t) :
    exec i { s with pc := 0xFF#8 } = .fault (.pcOverrun 0xFF#8) := by
  cases i with
  | reti | retc | call a | jmp a | jz a | jc a | je a | jg a | js a => simp [Spec.sequential] at hi
  | ldr rd a =>
    rcases next_of_execLdr h with ⟨v, hk, hv, -⟩ | ⟨hk, -⟩
    · exact andThen_advance_of_eq (memRead_of_ram hk hv) rfl
    · exact andThen_advance_of_eq (memRead_of_device hk) rfl
  | str a rs =>
    rcases next_of_execStr h with ⟨hk, -⟩ | ⟨hk, -⟩
    · exact andThen_advance_of_eq (memWrite_of_ram _ hk) rfl
    · exact andThen_advance_of_eq (memWrite_of_device _ hk) rfl
  | push rs => exact andThen_advance_of_eq (pushEntry_of_room (next_of_execPush h).1) rfl
  | pop rd =>
    obtain ⟨v, rest, hs, -⟩ := next_of_execPop h
    exact andThen_advance_of_eq (popEntry_of_match hs rfl) rfl
  | nop | movl rd l | movr rd rs | not r | rr r | rl r | swap r => rfl
  | andl rd b | andr rd b | orl rd b | orr rd b | xorl rd b | xorr rd b | addl rd b | addr rd b
  | subl rd b | subr rd b | cmpl rd b | cmpr rd b => rfl

/-- Settles O33. -/
theorem sequentialAdvanceNeverWraps : Obligations.SequentialAdvanceNeverWraps := by
  refine ⟨fun i s t => exec_sequential_at_top, fun a s hpc => ?_, fun s => rfl⟩
  have untaken : ∀ n, s.flags.get n = false → branchOn n a s = .fault (.pcOverrun 0xFF#8) := fun n hn => by
    rw [branchOn_of_clear hn, advance_of_eq hpc]
  have call : execCall a s = .fault (.pcOverrun 0xFF#8) := by simp [execCall, hpc]
  exact ⟨untaken .zf, untaken .cf, untaken .ef, untaken .gf, untaken .sf, call⟩

/-- The new `pc` of every instruction that goes on (10_state.md R14). -/
theorem exec_nextPc {i : Instr} {s t : State} (h : exec i s = .next t) : Spec.nextPc i s t.pc := by
  cases i with
  | nop => exact congrArg State.pc (next_of_execNop h)
  | reti =>
    obtain ⟨a, f, rest, hs, rfl⟩ := next_of_execReti h
    exact ⟨f, by rw [hs]; rfl⟩
  | retc =>
    obtain ⟨a, rest, hs, rfl⟩ := next_of_execRetc h
    show s.stack.head? = some (.call a)
    rw [hs]
    rfl
  | call a => exact congrArg State.pc (next_of_execCall h).2.2
  | jmp a => exact congrArg State.pc (next_of_execJmp h)
  | jz a | jc a | je a | jg a | js a => exact pc_of_branchOn h
  | movl rd l => exact congrArg State.pc (next_of_execMovl h)
  | movr rd rs => exact congrArg State.pc (next_of_execMovr h)
  | ldr rd a => rcases next_of_execLdr h with ⟨v, -, -, rfl⟩ | ⟨-, rfl⟩ <;> rfl
  | str a rs => rcases next_of_execStr h with ⟨-, rfl⟩ | ⟨-, rfl⟩ <;> rfl
  | push rs => exact congrArg State.pc (next_of_execPush h).2
  | pop rd =>
    obtain ⟨v, rest, -, rfl⟩ := next_of_execPop h
    rfl
  | not r => exact congrArg State.pc (next_of_execNot h)
  | rr r => exact congrArg State.pc (next_of_execRr h)
  | rl r => exact congrArg State.pc (next_of_execRl h)
  | swap r => exact congrArg State.pc (next_of_execSwap h)
  | andl rd b | andr rd b | orl rd b | orr rd b | xorl rd b | xorr rd b =>
    exact congrArg State.pc (next_of_aluLogic h)
  | addl rd b | addr rd b => exact congrArg State.pc (next_of_aluAdd h)
  | subl rd b | subr rd b => exact congrArg State.pc (next_of_aluSub h)
  | cmpl rd b | cmpr rd b => exact congrArg State.pc (next_of_aluCompare h)

/-- Settles O34. -/
theorem programCounterTable : Obligations.ProgramCounterTable :=
  ⟨fun _ _ _ => exec_nextPc,
    fun _ _ h => congrArg State.pc (next_of_enterInterrupt h).2,
    fun _ _ _ _ _ _ ha hw hj => step_eq_exec ha hw hj⟩

end Sys2Proof.Machine

/-! CLAIM. Two states that agree on the flags an instruction reads (10_state.md R18). -/

namespace Sys2Proof.Machine

/-- Two outcomes that differ at most in flags outside `written`: a next state answers a next state with the same
flags in `written`, a fault answers the same fault. -/
def AgreeOn (written : List FlagName) (x y : Result) : Prop :=
  (∀ t, x = .next t →
    ∃ g : Flags, y = .next { t with flags := g } ∧ ∀ n ∈ written, g.get n = t.flags.get n) ∧
  ∀ e, x = .fault e → y = .fault e

theorem AgreeOn.next {ns : List FlagName} {t : State} {g : Flags} (h : ∀ n ∈ ns, g.get n = t.flags.get n) :
    AgreeOn ns (.next t) (.next { t with flags := g }) :=
  ⟨fun _ ht => by cases ht; exact ⟨g, rfl, h⟩, fun _ he => (nomatch he)⟩

theorem AgreeOn.fault {ns : List FlagName} (e : Fault) : AgreeOn ns (.fault e) (.fault e) :=
  ⟨fun _ ht => (nomatch ht), fun _ => id⟩

/-- An advance carries the agreement of the flags on. -/
theorem AgreeOn.advance {ns : List FlagName} {s u : State} {g : Flags} (hu : u = { s with flags := g })
    (h : ∀ n ∈ ns, g.get n = s.flags.get n) : AgreeOn ns (Machine.advance s) (Machine.advance u) := by
  subst hu
  by_cases hp : s.pc = 0xFF#8
  · rw [advance_of_eq hp, advance_of_eq (s := { s with flags := g }) hp]
    exact .fault _
  · rw [advance_of_ne hp, advance_of_ne (s := { s with flags := g }) hp]
    exact .next h

/-- A conditional jump reads no flag but its own. -/
theorem AgreeOn.branchOn {n : FlagName} {a : Addr} {s : State} {f : Flags} (h : f.get n = s.flags.get n) :
    AgreeOn [] (Machine.branchOn n a s) (Machine.branchOn n a { s with flags := f }) := by
  cases hn : s.flags.get n with
  | true =>
    rw [branchOn_of_set hn, branchOn_of_set (h.trans hn)]
    exact .next (by simp)
  | false =>
    rw [branchOn_of_clear hn, branchOn_of_clear (h.trans hn)]
    exact .advance rfl (by simp)

/-- An instruction that neither reads nor writes a flag. -/
theorem AgreeOn.of_flagless {i : Instr} (s : State) (f : Flags) (hi : i ≠ .reti) (hf : flagless i = true) :
    AgreeOn [] (exec i s) (exec i { s with flags := f }) := by
  have h : exec i { s with flags := f } = Spec.mapNext (fun t => { t with flags := f }) (exec i s) :=
    exec_remap (φ := fun _ => f) (β := id) (π := id) i s hi fun h => by simp [hf] at h
  rw [h]
  cases hr : exec i s with
  | next t => exact .next (by simp)
  | fault e => exact .fault e
  | refused r => exact ⟨fun _ ht => (nomatch ht), fun _ he => (nomatch he)⟩

@[simp] theorem State.reg_withFlags (s : State) (f : Flags) (r : Reg) :
    ({ s with flags := f } : State).reg r = s.reg r := rfl

@[simp] theorem operandValue_withFlags (s : State) (f : Flags) (b : Operand2) :
    operandValue { s with flags := f } b = operandValue s b := by
  cases b <;> rfl

/-- CF enters a shift under SHIFT_FILL = Carry alone (42_alu_single.md R112, R113). -/
theorem shiftIn_congr {fill : ShiftFill} {f g : Flags} (leaving : Bool)
    (h : ∀ n ∈ (if fill = .carry then [FlagName.cf] else []), f.get n = g.get n) :
    shiftIn fill f.cf leaving = shiftIn fill g.cf leaving := by
  cases fill with
  | carry => exact h .cf (by simp)
  | zero | rotate => rfl

/-- Two shifts that write the same value. -/
theorem AgreeOn.shift {s : State} {f : Flags} {r : Reg} {v w : Byte} {leaving : Bool} (hv : w = v) :
    AgreeOn [.cf, .zf]
      (Machine.advance { s with
        regs := s.regs.set r v, flags := { s.flags with zf := zeroFlag v, cf := leaving } })
      (Machine.advance { s with
        regs := s.regs.set r w, flags := { f with zf := zeroFlag w, cf := leaving } }) := by
  subst hv
  exact .advance rfl (by simp [Flags.get])

/-- In a state of the machine RETI restores the saved flags under IRQ_SAVES_FLAGS and writes none otherwise
(40_jump.md R72; 10_state.md R24). -/
theorem AgreeOn.reti {s : State} (hs : Safety.Inv s) (f : Flags) :
    AgreeOn (Spec.flagsWritten s.cfg.irqSavesFlags .reti) (exec .reti s) (exec .reti { s with flags := f }) := by
  have hexec : ∀ u, exec .reti u = andThen (popIrq u) fun p => .next { p.2 with
      flags := restoredFlags p.2.cfg.irqSavesFlags p.1.2 p.2.flags, inService := false, pc := p.1.1 } := fun _ => rfl
  rw [hexec, hexec]
  have hpop : popIrq { s with flags := f } = (popIrq s).map (Prod.map id (State.remap (fun _ => f) id id)) :=
    popEntry_remap (φ := fun _ => f) (β := id) (π := id) .irq Entry.asIrq s
  rw [hpop]
  cases hp : popIrq s with
  | error e => exact .fault e
  | ok p =>
    obtain ⟨⟨a, saved⟩, t⟩ := p
    obtain ⟨rest, hstack, rfl⟩ := ok_of_popIrq hp
    have hsaved : saved.isSome = s.cfg.irqSavesFlags := by
      have hframe := hs.frames
      rw [hstack, List.all_cons, Bool.and_eq_true] at hframe
      exact eq_of_beq hframe.1
    refine AgreeOn.next (g := restoredFlags s.cfg.irqSavesFlags saved f) fun n hn => ?_
    cases hsv : s.cfg.irqSavesFlags with
    | true =>
      rw [hsv] at hsaved
      obtain ⟨g, rfl⟩ := Option.isSome_iff_exists.mp hsaved
      simp [restoredFlags]
    | false => simp [Spec.flagsWritten, hsv] at hn

/-- Changing flags that an instruction does not read changes neither its outcome nor the flags it writes
(10_state.md R18). -/
theorem AgreeOn.exec {i : Instr} {s : State} {f : Flags} (hs : Safety.Inv s)
    (hf : ∀ n ∈ Spec.flagsRead s.cfg.shiftFill i, f.get n = s.flags.get n) :
    AgreeOn (Spec.flagsWritten s.cfg.irqSavesFlags i) (exec i s) (exec i { s with flags := f }) := by
  cases i with
  | reti => exact .reti hs f
  | nop | retc | call a | jmp a | movl rd l | movr rd rs | ldr rd a | str a rs | push rs | pop rd =>
    exact .of_flagless s f (by simp) rfl
  | jz a | jc a | je a | jg a | js a => exact .branchOn (hf _ (by simp [Spec.flagsRead]))
  | not r | swap r => exact .advance rfl (by simp [Spec.flagsWritten, Flags.get, writeSingle])
  | rr r => exact .shift (congrArg (rightResult · (s.reg r)) (shiftIn_congr _ hf))
  | rl r => exact .shift (congrArg (leftResult · (s.reg r)) (shiftIn_congr _ hf))
  | andl rd b | andr rd b | orl rd b | orr rd b | xorl rd b | xorr rd b =>
    exact .advance rfl (by simp [Spec.flagsWritten, Flags.get])
  | addl rd b | addr rd b | subl rd b | subr rd b =>
    exact .advance rfl (by simp [Spec.flagsWritten, Flags.get])
  | cmpl rd b | cmpr rd b => exact .advance rfl (by simp [Spec.flagsWritten, Flags.get])

/-! ## The flags that are read matter -/

@[simp] theorem get_withFlag_self (f : Flags) (n : FlagName) (b : Bool) : (Spec.withFlag f n b).get n = b := by
  cases n <;> rfl

/-- A conditional jump away from `pc + 1` goes elsewhere when its flag changes (40_jump.md R76 to R80). -/
theorem branchOn_reads_flag {n : FlagName} {a : Addr} {s : State} (hpc : s.pc ≠ 0xFF#8) (ha : a ≠ s.pc + 1#8) :
    ∃ t u, branchOn n a { s with flags := Spec.withFlag s.flags n true } = .next t ∧
      branchOn n a { s with flags := Spec.withFlag s.flags n false } = .next u ∧ t.pc ≠ u.pc := by
  refine ⟨{ s with flags := Spec.withFlag s.flags n true, pc := a },
    { s with flags := Spec.withFlag s.flags n false, pc := s.pc + 1#8 }, branchOn_of_set (by simp), ?_, ha⟩
  rw [branchOn_of_clear (by simp)]
  exact advance_of_ne (s := { s with flags := Spec.withFlag s.flags n false }) hpc

/-- Under SHIFT_FILL = Carry, RR brings CF in at bit 7 (42_alu_single.md R112). -/
theorem execRr_of_carry {r : Reg} {s : State} (b : Bool) (hpc : s.pc ≠ 0xFF#8) (hc : s.cfg.shiftFill = .carry) :
    ∃ t, execRr r { s with flags := Spec.withFlag s.flags .cf b } = .next t ∧
      t.reg r = rightResult b (s.reg r) := by
  refine ⟨_, advance_of_ne hpc, ?_⟩
  calc _ = rightValue r { s with flags := Spec.withFlag s.flags .cf b } := State.reg_setReg_self s r _
    _ = rightResult b (s.reg r) := by simp [rightValue, hc, shiftIn, Spec.withFlag]

/-- Under SHIFT_FILL = Carry, RL brings CF in at bit 0 (42_alu_single.md R113). -/
theorem execRl_of_carry {r : Reg} {s : State} (b : Bool) (hpc : s.pc ≠ 0xFF#8) (hc : s.cfg.shiftFill = .carry) :
    ∃ t, execRl r { s with flags := Spec.withFlag s.flags .cf b } = .next t ∧
      t.reg r = leftResult b (s.reg r) := by
  refine ⟨_, advance_of_ne hpc, ?_⟩
  calc _ = leftValue r { s with flags := Spec.withFlag s.flags .cf b } := State.reg_setReg_self s r _
    _ = leftResult b (s.reg r) := by simp [leftValue, hc, shiftIn, Spec.withFlag]

theorem rightResult_true_ne_false (v : Byte) : rightResult true v ≠ rightResult false v := fun h => by
  have hbit : (rightResult true v).getLsbD 7 = (rightResult false v).getLsbD 7 := by rw [h]
  rw [getLsbD_rightResult, getLsbD_rightResult] at hbit
  simp at hbit

theorem leftResult_true_ne_false (v : Byte) : leftResult true v ≠ leftResult false v := fun h => by
  have hbit : (leftResult true v).getLsbD 0 = (leftResult false v).getLsbD 0 := by rw [h]
  rw [getLsbD_leftResult, getLsbD_leftResult] at hbit
  simp at hbit

/-- Settles O43: one agreement of outcomes for every instruction, and a run for each flag that is read. -/
theorem onlyTheListedFlagsAreRead : Obligations.OnlyTheListedFlagsAreRead := by
  refine ⟨fun i s f hs hf => AgreeOn.exec hs hf, fun a s n i hpc ha hin => ?_, fun r s i hpc hc hi => ?_⟩
  · simp only [List.mem_cons, Prod.mk.injEq, List.not_mem_nil, or_false] at hin
    rcases hin with ⟨rfl, rfl⟩ | ⟨rfl, rfl⟩ | ⟨rfl, rfl⟩ | ⟨rfl, rfl⟩ | ⟨rfl, rfl⟩
    exacts [branchOn_reads_flag (n := .zf) hpc ha, branchOn_reads_flag (n := .cf) hpc ha,
      branchOn_reads_flag (n := .ef) hpc ha, branchOn_reads_flag (n := .gf) hpc ha,
      branchOn_reads_flag (n := .sf) hpc ha]
  · rcases hi with rfl | rfl
    · obtain ⟨t, ht, hrt⟩ := execRr_of_carry (r := r) true hpc hc
      obtain ⟨u, hu, hru⟩ := execRr_of_carry (r := r) false hpc hc
      exact ⟨t, u, ht, hu, by rw [hrt, hru]; exact rightResult_true_ne_false _⟩
    · obtain ⟨t, ht, hrt⟩ := execRl_of_carry (r := r) true hpc hc
      obtain ⟨u, hu, hru⟩ := execRl_of_carry (r := r) false hpc hc
      exact ⟨t, u, ht, hu, by rw [hrt, hru]; exact leftResult_true_ne_false _⟩

end Sys2Proof.Machine

/-! CLAIMS. Who sets, clears and reads in_service (10_state.md R27), and the finality of a recorded fault (R28). -/

namespace Sys2Proof.Machine

/-- No instruction but RETI reads or writes in_service (10_state.md R27). -/
theorem exec_withInService (i : Instr) (s : State) (b : Bool) (hi : i ≠ .reti) :
    exec i { s with inService := b } = Spec.mapNext (fun t => { t with inService := b }) (exec i s) :=
  exec_remap (φ := id) (β := fun _ => b) (π := id) i s hi fun _ => rfl

/-- RETI does not read in_service, which it clears (40_jump.md R72). -/
theorem execReti_withInService (s : State) (b : Bool) :
    exec .reti { s with inService := b } = exec .reti s :=
  calc exec .reti { s with inService := b }
    _ = Spec.mapNext (State.remap id id id) (execReti s) := execReti_remap (β := fun _ => b) (π := id) s
    _ = execReti s := by cases execReti s <;> rfl

/-- What an instruction other than RETI leaves in in_service: writing the bit with its own value is no change. -/
theorem inService_of_exec {i : Instr} {s t : State} (hi : i ≠ .reti) (h : exec i s = .next t) :
    t.inService = s.inService := by
  have hself : exec i s = Spec.mapNext (fun t => { t with inService := s.inService }) (exec i s) :=
    exec_withInService i s s.inService hi
  rw [h] at hself
  have ht : t = { t with inService := s.inService } := Host.Outcome.next.inj hself
  rw [ht]

theorem inService_of_reti {s t : State} (h : exec .reti s = .next t) : t.inService = false := by
  obtain ⟨a, f, rest, -, rfl⟩ := next_of_execReti h
  rfl

/-- Outside a handler, no instruction puts an interrupt in service. -/
theorem inService_false_of_exec {i : Instr} {s t : State} (hs : s.inService = false) (h : exec i s = .next t) :
    t.inService = false := by
  by_cases hi : i = .reti
  · subst hi
    exact inService_of_reti h
  · rw [inService_of_exec hi h, hs]

/-- Settles O47. -/
theorem inServiceBit : Obligations.InServiceBit := by
  refine ⟨fun s t h => ?_, fun s t => inService_of_reti, fun i s b => exec_withInService i s b,
    execReti_withInService, fun s t hs => ?_, rfl, fun s t hp hs h => ?_⟩
  · rw [(next_of_enterInterrupt h).2]
  · exact exec_of_step fun ⟨_, _, hfree⟩ => by simp [hs] at hfree
  · have hacc : ¬ Spec.Accepted s := fun ⟨hpresent, _, _⟩ => by simp [hp] at hpresent
    obtain ⟨w, i, -, -, hexec⟩ := exec_of_step hacc h
    exact inService_false_of_exec (s := Spec.pastBoundary s) hs hexec

end Sys2Proof.Machine

namespace Sys2Proof.Safety

open Sys2Proof.Machine

theorem Monitor.step_of_next {m : Monitor} {t : State} (hm : m.status = none) (h : Machine.step m.state = .next t) :
    m.step = ⟨t, none⟩ := by
  simp [Monitor.step, hm, h]

theorem Monitor.step_of_fault {m : Monitor} {f : Fault} (hm : m.status = none)
    (h : Machine.step m.state = .fault f) : m.step = ⟨m.state, some f⟩ := by
  simp [Monitor.step, hm, h]

theorem Monitor.step_of_recorded {m : Monitor} {f : Fault} (hm : m.status = some f) : m.step = m := by
  simp [Monitor.step, hm]

/-- A recorded fault stops every later step (10_state.md R28). -/
theorem Monitor.steps_of_recorded {m : Monitor} {f : Fault} (hm : m.status = some f) (k : Nat) : m.steps k = m := by
  induction k with
  | zero => rfl
  | succ k ih => rw [Monitor.steps, Monitor.step_of_recorded hm, ih]

/-- Settles O53. -/
theorem recordedFaultIsFinal : Obligations.RecordedFaultIsFinal :=
  ⟨fun _ _ => Monitor.step_of_next, fun _ _ => Monitor.step_of_fault,
    fun _ _ k hm => Monitor.steps_of_recorded hm k⟩

end Sys2Proof.Safety

/-! SUPPORT. The formats (30_encoding.md R51 to R56): which opcodes have them, which bits of a word the decoder reads
under each, the canonical word as a number, and which operands the assembler accepts. -/

namespace Sys2Proof

/-! ## The format of an opcode (30_encoding.md R59) -/

/-- Format N: the opcode alone (R51). -/
abbrev FormatN (op : BitVec 5) : Prop := op.toNat ≤ 2

/-- Format J: an address (R52). -/
abbrev FormatJ (op : BitVec 5) : Prop := 3 ≤ op.toNat ∧ op.toNat ≤ 9

/-- Format RI: a register and a literal or data address (R53). -/
abbrev FormatRI (op : BitVec 5) : Prop :=
  op.toNat = 10 ∨ op.toNat = 12 ∨ op.toNat = 13 ∨ (20 ≤ op.toNat ∧ op.toNat % 2 = 0)

/-- Formats RR and RD: two register fields, which RD requires to agree (R54, R56). -/
abbrev FormatRR (op : BitVec 5) : Prop :=
  op.toNat = 11 ∨ (16 ≤ op.toNat ∧ op.toNat ≤ 19) ∨ (20 ≤ op.toNat ∧ op.toNat % 2 = 1)

/-- Format R: one register field (R55). -/
abbrev FormatR (op : BitVec 5) : Prop := op.toNat = 14 ∨ op.toNat = 15

theorem format_cases (op : BitVec 5) : FormatN op ∨ FormatJ op ∨ FormatRI op ∨ FormatRR op ∨ FormatR op := by
  omega

/-! ## The canonical word (30_encoding.md R60, R66) -/

/-- The word with its don't-care bits 0. -/
def canonical (w : InstrWord) : InstrWord := w &&& ~~~(Spec.dontCare w)

/-- The table of don't-care bits, read by the decoder's own opcode field. -/
theorem dontCare_eq (w : InstrWord) : Spec.dontCare w =
    if FormatN (opcodeField w) then 0x07FF#16
    else if (opcodeField w).toNat ≤ 9 then 0x0700#16
    else if FormatR (opcodeField w) then 0x00FF#16
    else if FormatRR (opcodeField w) then 0x001F#16
    else 0x0000#16 := rfl

section
variable {w : InstrWord}

theorem canonical_of_formatN (h : FormatN (opcodeField w)) : canonical w = wordN (opcodeField w) := by
  rw [wordN_fields, canonical, dontCare_eq, if_pos h]

theorem canonical_of_formatJ (h : FormatJ (opcodeField w)) :
    canonical w = wordJ (opcodeField w) (immField w) := by
  rw [wordJ_fields, canonical, dontCare_eq, if_neg (by omega), if_pos h.2]

theorem canonical_of_formatR (h : FormatR (opcodeField w)) :
    canonical w = wordR (opcodeField w) (regField w) := by
  rw [wordR_fields, canonical, dontCare_eq, if_neg (by omega), if_neg (by omega), if_pos h]

theorem canonical_of_formatRR (h : FormatRR (opcodeField w)) :
    canonical w = wordRR (opcodeField w) (regField w) (srcField w) := by
  rw [wordRR_fields, canonical, dontCare_eq, if_neg (by omega), if_neg (by omega), if_neg (by omega), if_pos h]

theorem canonical_of_formatRI (h : FormatRI (opcodeField w)) :
    canonical w = wordRI (opcodeField w) (regField w) (immField w) := by
  rw [wordRI_fields, canonical, dontCare_eq, if_neg (by omega), if_neg (by omega), if_neg (by omega),
    if_neg (by omega)]
  exact BitVec.and_allOnes

/-- Clearing the don't-care bits leaves the opcode and the fields of the opcode's format. -/
theorem opcodeField_canonical (w : InstrWord) : opcodeField (canonical w) = opcodeField w := by
  rcases format_cases (opcodeField w) with h | h | h | h | h
  · rw [canonical_of_formatN h, opcodeField_wordN]
  · rw [canonical_of_formatJ h, opcodeField_wordJ]
  · rw [canonical_of_formatRI h, opcodeField_wordRI]
  · rw [canonical_of_formatRR h, opcodeField_wordRR]
  · rw [canonical_of_formatR h, opcodeField_wordR]

theorem regField_canonical (h : FormatRI (opcodeField w) ∨ FormatRR (opcodeField w) ∨ FormatR (opcodeField w)) :
    regField (canonical w) = regField w := by
  rcases h with h | h | h
  · rw [canonical_of_formatRI h, regField_wordRI]
  · rw [canonical_of_formatRR h, regField_wordRR]
  · rw [canonical_of_formatR h, regField_wordR]

theorem srcField_canonical (h : FormatRR (opcodeField w)) : srcField (canonical w) = srcField w := by
  rw [canonical_of_formatRR h, srcField_wordRR]

theorem immField_canonical (h : FormatJ (opcodeField w) ∨ FormatRI (opcodeField w)) :
    immField (canonical w) = immField w := by
  rcases h with h | h
  · rw [canonical_of_formatJ h, immField_wordJ]
  · rw [canonical_of_formatRI h, immField_wordRI]

theorem and_dontCare_of_canonical (h : canonical w = w) : w &&& Spec.dontCare w = 0#16 :=
  calc w &&& Spec.dontCare w
    _ = canonical w &&& Spec.dontCare w := by rw [h]
    _ = w &&& (~~~(Spec.dontCare w) &&& Spec.dontCare w) := BitVec.and_assoc _ _ _
    _ = 0#16 := by simp

end

/-! Each format rebuilds its words from their own fields. -/

section
variable {op : BitVec 5}

theorem canonical_wordN (h : FormatN op) : canonical (wordN op) = wordN op := by
  simpa using canonical_of_formatN (w := wordN op) (by simpa using h)

theorem canonical_wordJ {a : Addr} (h : FormatJ op) : canonical (wordJ op a) = wordJ op a := by
  simpa using canonical_of_formatJ (w := wordJ op a) (by simpa using h)

theorem canonical_wordRI {r : Reg} {imm : Byte} (h : FormatRI op) :
    canonical (wordRI op r imm) = wordRI op r imm := by
  simpa using canonical_of_formatRI (w := wordRI op r imm) (by simpa using h)

theorem canonical_wordRR {rd rs : Reg} (h : FormatRR op) : canonical (wordRR op rd rs) = wordRR op rd rs := by
  simpa using canonical_of_formatRR (w := wordRR op rd rs) (by simpa using h)

theorem canonical_wordR {r : Reg} (h : FormatR op) : canonical (wordR op r) = wordR op r := by
  simpa using canonical_of_formatR (w := wordR op r) (by simpa using h)

end

/-- Every encoded word has 0 in its don't-care bits (R60, R66). -/
theorem canonical_encode (i : Instr) : canonical (encode i) = encode i := by
  cases i
  case nop | reti | retc => exact canonical_wordN (by decide)
  case call | jmp | jz | jc | je | jg | js => exact canonical_wordJ (by decide)
  case push | pop => exact canonical_wordR (by decide)
  case not | rr | rl | swap | movr | andr | orr | xorr | addr | subr | cmpr => exact canonical_wordRR (by decide)
  case movl | ldr | str | andl | orl | xorl | addl | subl | cmpl => exact canonical_wordRI (by decide)

/-! ## What the decoder reads -/

/-- The decoder reads the opcode and the fields of the opcode's format, nothing else (R50, R60). -/
theorem decode_congr {w v : InstrWord} (hop : opcodeField w = opcodeField v)
    (hreg : FormatRI (opcodeField v) ∨ FormatRR (opcodeField v) ∨ FormatR (opcodeField v) →
      regField w = regField v)
    (hsrc : FormatRR (opcodeField v) → srcField w = srcField v)
    (himm : FormatJ (opcodeField v) ∨ FormatRI (opcodeField v) → immField w = immField v) :
    decode w = decode v := by
  simp only [FormatJ, FormatRI, FormatRR, FormatR] at hreg hsrc himm
  rcases opcode_cases (opcodeField v) with h | h | h | h | h | h | h | h | h | h | h | h | h | h | h | h |
    h | h | h | h | h | h | h | h | h | h | h | h | h | h | h | h
  all_goals simp [decode, decodeTwice, hop, h, hreg, hsrc, himm]

/-- Don't-care bits take no part in decoding (R60). -/
theorem decode_canonical (w : InstrWord) : decode (canonical w) = decode w :=
  decode_congr (opcodeField_canonical w) regField_canonical srcField_canonical immField_canonical

theorem decodeTwice_eq_ok_iff (w : InstrWord) (c : Reg → Instr) (i : Instr) :
    decodeTwice w c = .ok i ↔ srcField w = regField w ∧ c (regField w) = i := by
  by_cases h : srcField w = regField w <;> simp [decodeTwice, h]

/-- The N instructions are selected by their opcode alone (R51, R59). -/
theorem decode_eq_formatN_iff (w : InstrWord) :
    (decode w = .ok .nop ↔ opcodeField w = 0#5) ∧ (decode w = .ok .reti ↔ opcodeField w = 1#5) ∧
    (decode w = .ok .retc ↔ opcodeField w = 2#5) := by
  rcases opcode_cases (opcodeField w) with h | h | h | h | h | h | h | h | h | h | h | h | h | h | h | h |
    h | h | h | h | h | h | h | h | h | h | h | h | h | h | h | h
  all_goals simp [decode, decodeTwice_eq_ok_iff, h]

/-- The words of one opcode are a run of 2048 (R50). -/
theorem opcodeField_eq_iff (w : InstrWord) {k : Nat} (hk : k < 32) :
    opcodeField w = BitVec.ofNat 5 k ↔ 2048 * k ≤ w.toNat ∧ w.toNat < 2048 * (k + 1) := by
  have hfield : (opcodeField w).toNat = w.toNat / 2048 := by
    rw [opcodeField, BitVec.extractLsb'_toNat, Nat.shiftRight_eq_div_pow]
    omega
  rw [← BitVec.toNat_inj, hfield, BitVec.toNat_ofNat]
  omega

/-! ## The word as a number (30_encoding.md R66) -/

theorem toNat_widen_shiftLeft {n : Nat} (v : BitVec n) {k : Nat} (h : n + k ≤ 16) :
    (widen v <<< k).toNat = v.toNat <<< k := by
  have hv : v.toNat <<< k < 2 ^ 16 :=
    calc v.toNat <<< k
      _ = v.toNat * 2 ^ k := Nat.shiftLeft_eq _ _
      _ < 2 ^ n * 2 ^ k := Nat.mul_lt_mul_of_pos_right v.isLt (Nat.two_pow_pos k)
      _ = 2 ^ (n + k) := (Nat.pow_add 2 n k).symm
      _ ≤ 2 ^ 16 := Nat.pow_le_pow_right (by decide) h
  have hw : (widen v).toNat = v.toNat := BitVec.toNat_setWidth_of_le (by omega)
  rw [BitVec.toNat_shiftLeft, hw, Nat.mod_eq_of_lt hv]

theorem toNat_widen {n : Nat} (v : BitVec n) (h : n ≤ 16) : (widen v).toNat = v.toNat := by
  simpa using toNat_widen_shiftLeft v (k := 0) h

section
variable (op : BitVec 5)

theorem toNat_wordN : (wordN op).toNat = (op.toNat <<< 11) ||| 0 := by
  rw [wordN, toNat_widen_shiftLeft op (by decide), Nat.or_zero]

theorem toNat_wordJ (a : Addr) : (wordJ op a).toNat = (op.toNat <<< 11) ||| a.toNat := by
  rw [wordJ, BitVec.toNat_or, toNat_widen_shiftLeft op (by decide), toNat_widen a (by decide)]

theorem toNat_wordR (r : Reg) : (wordR op r).toNat = (op.toNat <<< 11) ||| (r.val <<< 8) := by
  rw [wordR, BitVec.toNat_or, toNat_widen_shiftLeft op (by decide), toNat_widen_shiftLeft (regBits r) (by decide)]
  rfl

theorem toNat_wordRI (r : Reg) (imm : Byte) :
    (wordRI op r imm).toNat = (op.toNat <<< 11) ||| ((r.val <<< 8) ||| imm.toNat) := by
  rw [← Nat.or_assoc, ← toNat_wordR, ← toNat_widen imm (by decide)]
  exact BitVec.toNat_or _ _

theorem toNat_wordRR (rd rs : Reg) :
    (wordRR op rd rs).toNat = (op.toNat <<< 11) ||| ((rd.val <<< 8) ||| (rs.val <<< 5)) := by
  have hrs : (widen (regBits rs) <<< 5).toNat = rs.val <<< 5 := toNat_widen_shiftLeft _ (by decide)
  rw [← Nat.or_assoc, ← toNat_wordR, ← hrs]
  exact BitVec.toNat_or _ _

end

/-- The canonical word is the formula of its format (R66). -/
theorem toNat_encode (i : Instr) : (encode i).toNat = (Spec.opcode i <<< 11) ||| Spec.operandBits i := by
  cases i
  case nop | reti | retc => exact toNat_wordN _
  case call | jmp | jz | jc | je | jg | js => exact toNat_wordJ _ _
  case push | pop => exact toNat_wordR _ _
  case not | rr | rl | swap | movr | andr | orr | xorr | addr | subr | cmpr => exact toNat_wordRR _ _ _
  case movl | ldr | str | andl | orl | xorl | addl | subl | cmpl => exact toNat_wordRI _ _ _

/-! ## The assembler (30_encoding.md R64 to R66) -/

theorem asReg_of_lt {n : Nat} (h : n < 8) : asReg n = .ok ⟨n, h⟩ := dif_pos h

theorem lt_of_asReg {n : Nat} {r : Reg} (h : asReg n = .ok r) : n < 8 := by
  by_contra hn
  simp [asReg, hn] at h

theorem lt_of_asByte {n : Nat} {b : Byte} (h : asByte n = .ok b) : n < 256 := by
  by_contra hn
  simp [asByte, hn] at h

section
variable {ε α β : Type} {x : Except ε α} {b : β}

theorem ok_of_bind {f : α → Except ε β} (h : x.bind f = .ok b) : ∃ a, x = .ok a ∧ f a = .ok b := by
  cases x with
  | ok a => exact ⟨a, rfl, h⟩
  | error e => cases h

theorem ok_of_map {f : α → β} (h : x.map f = .ok b) : ∃ a, x = .ok a := by
  cases x with
  | ok a => exact ⟨a, rfl⟩
  | error e => cases h

end

/-! What each usage line accepts: operands that are all in range. -/

section
variable {ops : List Operand} {i : Instr}

theorem inRange_of_asmN {c : Instr} (h : asmN ops c = .ok i) : ops.all Operand.inRange = true := by
  unfold asmN at h
  split at h
  · rfl
  · cases h

theorem inRange_of_asmJ {c : Addr → Instr} (h : asmJ ops c = .ok i) : ops.all Operand.inRange = true := by
  unfold asmJ at h
  split at h
  · obtain ⟨_, ha⟩ := ok_of_map h
    simp [Operand.inRange, lt_of_asByte ha]
  · cases h

theorem inRange_of_asmR {c : Reg → Instr} (h : asmR ops c = .ok i) : ops.all Operand.inRange = true := by
  unfold asmR at h
  split at h
  · obtain ⟨_, hr⟩ := ok_of_map h
    simp [Operand.inRange, lt_of_asReg hr]
  · cases h

theorem inRange_of_asmRL {c : Reg → Byte → Instr} (h : asmRL ops c = .ok i) :
    ops.all Operand.inRange = true := by
  unfold asmRL at h
  split at h
  · obtain ⟨_, hd, h⟩ := ok_of_bind h
    obtain ⟨_, hl⟩ := ok_of_map h
    simp [Operand.inRange, lt_of_asReg hd, lt_of_asByte hl]
  · cases h

theorem inRange_of_asmRR {c : Reg → Reg → Instr} (h : asmRR ops c = .ok i) :
    ops.all Operand.inRange = true := by
  unfold asmRR at h
  split at h
  · obtain ⟨_, hd, h⟩ := ok_of_bind h
    obtain ⟨_, hr⟩ := ok_of_map h
    simp [Operand.inRange, lt_of_asReg hd, lt_of_asReg hr]
  · cases h

theorem inRange_of_asmLoad {c : Reg → Addr → Instr} (h : asmLoad ops c = .ok i) :
    ops.all Operand.inRange = true := by
  unfold asmLoad at h
  split at h
  · obtain ⟨_, hd, h⟩ := ok_of_bind h
    obtain ⟨_, ha⟩ := ok_of_map h
    simp [Operand.inRange, lt_of_asReg hd, lt_of_asByte ha]
  · cases h

theorem inRange_of_asmStore {c : Addr → Reg → Instr} (h : asmStore ops c = .ok i) :
    ops.all Operand.inRange = true := by
  unfold asmStore at h
  split at h
  · obtain ⟨_, ha, h⟩ := ok_of_bind h
    obtain ⟨_, hr⟩ := ok_of_map h
    simp [Operand.inRange, lt_of_asByte ha, lt_of_asReg hr]
  · cases h

end

/-- A statement that assembles has its operands in range (R66). -/
theorem inRange_of_assemble {st : Statement} {i : Instr} (h : assemble st = .ok i) :
    st.operands.all Operand.inRange = true := by
  obtain ⟨m, ops⟩ := st
  cases m
  case nop | reti | retc => exact inRange_of_asmN h
  case call | jmp | jz | jc | je | jg | js => exact inRange_of_asmJ h
  case movl | andl | orl | xorl | addl | subl | cmpl => exact inRange_of_asmRL h
  case movr | andr | orr | xorr | addr | subr | cmpr => exact inRange_of_asmRR h
  case ldr => exact inRange_of_asmLoad h
  case str => exact inRange_of_asmStore h
  case push | pop | not | rr | rl | swap | inc | dec | clr => exact inRange_of_asmR h

/-! ## The virtual instructions (30_encoding.md R65) -/

theorem asmR_of_lt {n : Nat} (h : n < 8) (c : Reg → Instr) : asmR [.reg n] c = .ok (c ⟨n, h⟩) := by
  rw [asmR, asReg_of_lt h]
  rfl

theorem asmRL_of_lt {n l : Nat} (hn : n < 8) (hl : l < 256) (c : Reg → Byte → Instr) :
    asmRL [.reg n, .lit l] c = .ok (c ⟨n, hn⟩ (BitVec.ofNat 8 l)) := by
  simp [asmRL, asReg_of_lt hn, asByte, hl, Except.bind, Except.map]

/-- The printed words of INC, DEC and CLR. -/
theorem encode_virtual (r : Reg) :
    encode (.addl r 0x01#8) = BitVec.ofNat 16 (0xD001 + (r.val <<< 8)) ∧
    encode (.subl r 0x01#8) = BitVec.ofNat 16 (0xE001 + (r.val <<< 8)) ∧
    encode (.movl r 0x00#8) = BitVec.ofNat 16 (0x5000 + (r.val <<< 8)) := by
  revert r
  decide

end Sys2Proof

/-! CLAIMS. Don't-care bits, the canonical word as a formula, and the virtual instructions (30_encoding.md R60, R65,
R66). -/

namespace Sys2Proof

/-- Settles O3: the decoder sees a word only through its canonical word, and the N instructions through the opcode. -/
theorem dontCareBitsAreIgnored : Obligations.DontCareBitsAreIgnored := by
  refine ⟨fun w v h => ?_, fun i => and_dontCare_of_canonical (canonical_encode i), fun w => ?_, fun w => ?_,
    fun w => ?_⟩
  · calc decode w
      _ = decode (canonical w) := (decode_canonical w).symm
      _ = decode (canonical v) := congrArg decode h
      _ = decode v := decode_canonical v
  all_goals obtain ⟨hnop, hreti, hretc⟩ := decode_eq_formatN_iff w
  · simpa [hnop] using opcodeField_eq_iff w (k := 0) (by decide)
  · simpa [hreti] using opcodeField_eq_iff w (k := 1) (by decide)
  · simpa [hretc] using opcodeField_eq_iff w (k := 2) (by decide)

/-- Settles O5: one number per format, and one acceptance lemma per usage line. -/
theorem canonicalEncodingFormula : Obligations.CanonicalEncodingFormula := by
  refine ⟨toNat_encode, ?_⟩
  rintro st ⟨o, ho, hout⟩ i h
  have hin : o.inRange = true := List.all_eq_true.mp (inRange_of_assemble h) o ho
  rcases hout with ⟨n, rfl, hn⟩ | ⟨n, rfl | rfl | rfl, hn⟩
  all_goals
    have hlt := of_decide_eq_true hin
    omega

/-- Settles O8: both statements of each pair assemble to the same instruction. -/
theorem virtualInstructionsAreTheirExpansions : Obligations.VirtualInstructionsAreTheirExpansions := by
  intro n h
  obtain ⟨hinc, hdec, hclr⟩ := encode_virtual ⟨n, h⟩
  refine ⟨⟨asmR_of_lt h _, ?_, hinc⟩, ⟨asmR_of_lt h _, ?_, hdec⟩, ⟨asmR_of_lt h _, ?_, hclr⟩⟩
  · exact (asmR_of_lt h _).trans (asmRL_of_lt (l := 1) h (by decide) _).symm
  · exact (asmR_of_lt h _).trans (asmRL_of_lt (l := 1) h (by decide) _).symm
  · exact (asmR_of_lt h _).trans (asmRL_of_lt (l := 0) h (by decide) _).symm

end Sys2Proof

/-! SUPPORT. What NOP, JMP and RETC answer (40_jump.md R70, R74, R75), and the words of JMP. -/

namespace Sys2Proof

theorem decode_of_opcode_jmp {w : InstrWord} (h : opcodeField w = 0b00100#5) :
    decode w = .ok (.jmp (immField w)) := by
  simp [decode, h]

end Sys2Proof

namespace Sys2Proof.Machine

theorem exec_nop (s : State) : exec .nop s = advance s := rfl

theorem exec_jmp (a : Addr) (s : State) : exec (.jmp a) s = .next { s with pc := a } := rfl

theorem exec_retc (s : State) : exec .retc s = andThen (popCall s) fun p => jumpTo p.1 p.2 := rfl

section
variable {s : State}

theorem exec_retc_of_popped {a : Addr} {t : State} (h : popCall s = .ok (a, t)) :
    exec .retc s = .next { t with pc := a } := by
  rw [exec_retc, h, andThen_ok, jumpTo]

/-- RETC makes no check of its own: it has the faults of its pop (40_jump.md R74). -/
theorem exec_retc_of_not_popped {f : Fault} (h : popCall s = .error f) : exec .retc s = .fault f := by
  rw [exec_retc, h, andThen_error]

end

end Sys2Proof.Machine

/-! CLAIMS. NOP, JMP and RETC (40_jump.md R70, R74, R75). -/

namespace Sys2Proof.Machine

/-- Settles O13: NOP is the sequential advance alone. -/
theorem nopOnlyAdvances : Obligations.NopOnlyAdvances := by
  refine ⟨by decide, fun w hop => ?_, fun s hpc => ?_, fun s hpc => ?_⟩
  · obtain ⟨hnop, -, -⟩ := decode_eq_formatN_iff w
    exact hnop.mpr hop
  · rw [exec_nop, advance_of_ne hpc]
  · rw [exec_nop, advance_of_eq hpc, hpc]

/-- Settles O14: JMP writes `pc` unchecked, so a jump to `pc` itself writes the value that stands there. -/
theorem jmpGoesToItsAddress : Obligations.JmpGoesToItsAddress :=
  ⟨fun _ => rfl, fun _ => decode_of_opcode_jmp, exec_jmp, fun s => exec_jmp s.pc s⟩

/-- Settles O16: one case of the pop for each kind of top entry and one for the empty stack. -/
theorem retcPopsReturnAddress : Obligations.RetcPopsReturnAddress := by
  refine ⟨by decide, fun w hop => ?_, fun s a rest hs => ?_, fun s hs => ?_, fun s v rest hs => ?_,
    fun s a f rest hs => ?_⟩
  · obtain ⟨-, -, hretc⟩ := decode_eq_formatN_iff w
    exact hretc.mpr hop
  · exact exec_retc_of_popped (popEntry_of_match hs rfl)
  · exact exec_retc_of_not_popped (popEntry_of_empty hs)
  · exact exec_retc_of_not_popped (popEntry_of_mismatch hs rfl)
  · exact exec_retc_of_not_popped (popEntry_of_mismatch hs rfl)

end Sys2Proof.Machine

/-! SUPPORT. The words of MOVL and POP (30_encoding.md R53, R55, R66), and what they answer (41_register_memory.md R90,
R95). -/

namespace Sys2Proof

/-- The register field of a canonical word is the register's number (30_encoding.md R58). -/
theorem widen_regBits (r : Reg) : widen (regBits r) = BitVec.ofNat 16 r.val :=
  BitVec.eq_of_toNat_eq <| by
    have hr : r.val < 2 ^ 16 := r.isLt.trans (by decide)
    rw [toNat_widen _ (by decide), BitVec.toNat_ofNat, Nat.mod_eq_of_lt hr]
    rfl

section
variable {w : InstrWord}

theorem decode_of_opcode_movl (h : opcodeField w = 0b01010#5) :
    decode w = .ok (.movl (regField w) (immField w)) := by
  simp [decode, h]

theorem decode_of_opcode_pop (h : opcodeField w = 0b01111#5) : decode w = .ok (.pop (regField w)) := by
  simp [decode, h]

end

/-- A usage `Rd, L` with a literal in range accepts the registers that a usage of one register accepts. -/
theorem asmRL_reg_lit (n : Nat) {l : Nat} (hl : l < 256) (c : Reg → Byte → Instr) :
    asmRL [.reg n, .lit l] c = asmR [.reg n] fun d => c d (BitVec.ofNat 8 l) := by
  have hb : asByte l = .ok (BitVec.ofNat 8 l) := if_pos hl
  rw [asmRL, asmR, hb]
  cases asReg n <;> rfl

end Sys2Proof

namespace Sys2Proof.Machine

section
variable {rd : Reg} {v : Byte} {s : State}

/-! A register written, then the advance: the end of MOVL, MOVR, LDR and POP. -/

theorem advance_setReg_of_ne (h : s.pc ≠ 0xFF#8) :
    advance (s.setReg rd v) = .next { s with regs := s.regs.set rd v, pc := s.pc + 1#8 } :=
  advance_of_ne (s := s.setReg rd v) h

theorem advance_setReg_of_eq (h : s.pc = 0xFF#8) : advance (s.setReg rd v) = .fault (.pcOverrun s.pc) := by
  rw [h]
  exact advance_of_eq (s := s.setReg rd v) h

theorem exec_movl (rd : Reg) (l : Byte) (s : State) : exec (.movl rd l) s = advance (s.setReg rd l) := rfl

theorem exec_pop (rd : Reg) (s : State) :
    exec (.pop rd) s = andThen (popData s) fun p => advance (p.2.setReg rd p.1) := rfl

theorem exec_pop_of_popped {t : State} (h : popData s = .ok (v, t)) :
    exec (.pop rd) s = advance (t.setReg rd v) := by
  rw [exec_pop, h, andThen_ok]

/-- A POP whose pop faults raises that fault, at 0xFF too (60_exceptions.md R162). -/
theorem exec_pop_of_not_popped {f : Fault} (h : popData s = .error f) : exec (.pop rd) s = .fault f := by
  rw [exec_pop, h, andThen_error]

theorem exec_pop_of_data {rest : List Entry} (hs : s.stack = .data v :: rest) :
    exec (.pop rd) s = advance ({ s with stack := rest }.setReg rd v) :=
  exec_pop_of_popped (popEntry_of_match hs rfl)

end

end Sys2Proof.Machine

/-! CLAIMS. MOVL and POP (41_register_memory.md R90, R95). -/

namespace Sys2Proof.Machine

/-- Settles O19: MOVL is one register write and the advance, and CLR assembles through the same operand checks. -/
theorem movlLoadsLiteral : Obligations.MovlLoadsLiteral := by
  refine ⟨fun rd l => ?_, fun w hop => ?_, fun rd l s hpc => ?_, fun rd l s hpc => ?_, fun n => ?_⟩
  · rw [← widen_regBits]
    rfl
  · exact ⟨regField w, decode_of_opcode_movl hop, rfl⟩
  · exact advance_setReg_of_ne hpc
  · rw [exec_movl, advance_setReg_of_eq hpc]
  · exact (asmRL_reg_lit n (by decide) .movl).symm

/-- Settles O24: one case of the pop for each kind of top entry and one for the empty stack; after a PUSH the top
entry is the pushed one. -/
theorem popUnstacksRegister : Obligations.PopUnstacksRegister := by
  refine ⟨fun rd => ?_, fun w hop => ?_, fun rd s v rest hs => ⟨fun hpc => ?_, fun hpc => ?_⟩, fun rd s hs => ?_,
    fun rd s a rest hs => ?_, fun rd s a f rest hs => ?_, fun ra rb s t hpush hpc => ?_⟩
  · rw [← widen_regBits]
    rfl
  · exact ⟨regField w, decode_of_opcode_pop hop, rfl⟩
  · exact (exec_pop_of_data hs).trans (advance_setReg_of_ne hpc)
  · exact (exec_pop_of_data hs).trans (advance_setReg_of_eq hpc)
  · exact exec_pop_of_not_popped (popEntry_of_empty hs)
  · exact exec_pop_of_not_popped (popEntry_of_mismatch hs rfl)
  · exact exec_pop_of_not_popped (popEntry_of_mismatch hs rfl)
  · have hstack : t.stack = .data (s.reg ra) :: s.stack := congrArg State.stack (next_of_execPush hpush).2
    exact (exec_pop_of_data hstack).trans (advance_setReg_of_ne hpc)

end Sys2Proof.Machine

/-! CLAIM. CLR (42_alu_single.md R117). -/

namespace Sys2Proof.Machine

/-- Settles O31: CLR assembles to MOVL with 0, so its word and its effect are MOVL's (O19), which writes no flag. -/
theorem clrClearsRegister : Obligations.ClrClearsRegister := by
  intro n h
  obtain ⟨hencode, -, hwrites, hfaults, -⟩ := movlLoadsLiteral
  have hword : encode (.movl ⟨n, h⟩ 0x00#8) = 0x5000#16 ||| (BitVec.ofNat 16 n <<< 8) :=
    (hencode ⟨n, h⟩ 0x00#8).trans BitVec.or_zero
  exact ⟨.movl ⟨n, h⟩ 0x00#8, asmR_of_lt h _, hword, hwrites ⟨n, h⟩ 0x00#8, hfaults ⟨n, h⟩ 0x00#8⟩

end Sys2Proof.Machine

/-! SUPPORT. What a step does where an interrupt is accepted, and what it leaves in in_service
(60_exceptions.md R165 to R167). -/

namespace Sys2Proof.Machine

theorem not_accepted_of_inService {s : State} (hs : s.inService = true) : ¬ Spec.Accepted s :=
  fun ⟨_, _, hfree⟩ => Bool.false_ne_true (hfree.symm.trans hs)

theorem step_of_accepted {s : State} (ha : Spec.Accepted s) : step s = enterInterrupt (Spec.pastBoundary s) :=
  if_pos ((acceptsInterrupt_iff s).mpr ha)

theorem enterInterrupt_of_room {s : State} (h : s.stack.length ≠ s.cfg.stackDepth) :
    enterInterrupt s = .next { s with
      stack := .irq s.pc (if s.cfg.irqSavesFlags then some s.flags else none) :: s.stack
      inService := true
      pc := s.cfg.irqVector } := by
  rw [enterInterrupt, pushEntry_of_room h, andThen_ok]

theorem inService_of_enterInterrupt {s t : State} (h : enterInterrupt s = .next t) : t.inService = true :=
  congrArg State.inService (next_of_enterInterrupt h).2

/-- Outside a handler, a step puts an interrupt in service exactly by accepting one: entry sets the bit, and no
instruction does. -/
theorem inService_iff_accepted_of_step {s t : State} (hs : s.inService = false) (h : step s = .next t) :
    t.inService = true ↔ Spec.Accepted s := by
  by_cases ha : Spec.Accepted s
  · rw [step_of_accepted ha] at h
    exact iff_of_true (inService_of_enterInterrupt h) ha
  · obtain ⟨w, i, -, -, hexec⟩ := exec_of_step ha h
    have ht : t.inService = false := inService_false_of_exec (s := Spec.pastBoundary s) hs hexec
    exact iff_of_false (Bool.eq_false_iff.mp ht) ha

/-- An accepted interrupt is entered if its frame has room on the stack. -/
theorem exists_step_of_accepted {s : State} (ha : Spec.Accepted s) (hroom : s.stack.length ≠ s.cfg.stackDepth) :
    ∃ t, step s = .next t ∧ t.inService = true :=
  ⟨_, (step_of_accepted ha).trans (enterInterrupt_of_room (s := Spec.pastBoundary s) hroom), rfl⟩

end Sys2Proof.Machine

/-! CLAIM. When an interrupt is accepted (60_exceptions.md R165). -/

namespace Sys2Proof.Machine

/-- Settles O12: a launch meets every condition of R165 under a schedule that begins with a request, and its empty
stack has room for the frame. -/
theorem interruptAcceptedExactlyWhen : Obligations.InterruptAcceptedExactlyWhen := by
  refine ⟨fun s t h hs => ?_, fun s w i hs => step_eq_exec (not_accepted_of_inService hs),
    fun m f => Safety.Monitor.step_of_recorded, fun c p cells u line hpresent hdepth => ?_⟩
  · rw [inService_iff_accepted_of_step hs h, Spec.Accepted, and_iff_left hs]
  · have hroom : 0 ≠ c.stackDepth := by omega
    exact exists_step_of_accepted ⟨hpresent, rfl, rfl⟩ hroom

end Sys2Proof.Machine

/-! SUPPORT. The decoder against the encoder and the opcode map (30_encoding.md R59 to R62, R66, R67), and the assembler
against the usage lines (R64). -/

namespace Sys2Proof

/-! ## Encoding and decoding (30_encoding.md R66, R67) -/

/-- The fields of a canonical word are the operands it was built from, and in format RD both copies agree. -/
theorem decode_encode (i : Instr) : decode (encode i) = .ok i := by
  cases i
  case not | rr | rl | swap => simp [encode, decode, decodeTwice]
  all_goals simp [encode, decode]

theorem wordRD_eq_wordRR (op : BitVec 5) (r : Reg) : wordRD op r = wordRR op r r := rfl

/-- Every opcode has one format, whose word, rebuilt from the fields the decoder reads, is the canonical word. -/
theorem encode_of_decode {w : InstrWord} {i : Instr} (hd : decode w = .ok i) : encode i = canonical w := by
  revert i
  rcases opcode_cases (opcodeField w) with h | h | h | h | h | h | h | h | h | h | h | h | h | h | h | h |
    h | h | h | h | h | h | h | h | h | h | h | h | h | h | h | h
  all_goals
    simp +contextual [decode, decodeTwice_eq_ok_iff, encode, wordRD_eq_wordRR, h, FormatJ, FormatRI, FormatRR, FormatR,
      canonical_of_formatN, canonical_of_formatJ, canonical_of_formatRI, canonical_of_formatRR, canonical_of_formatR]

/-! ## Reserved words (30_encoding.md R61, R62) -/

theorem decodeTwice_eq_error_iff (w : InstrWord) (c : Reg → Instr) (e : DecodeError) :
    decodeTwice w c = .error e ↔
      srcField w ≠ regField w ∧ e = .reserved (opcodeField w) (regField w) (srcField w) := by
  by_cases h : srcField w = regField w <;> simp [decodeTwice, h, eq_comm]

/-- The decoder rejects the words of NOT, RR, RL and SWAP with differing register copies and no others. -/
theorem decode_eq_error_iff (w : InstrWord) (e : DecodeError) :
    decode w = .error e ↔ (16 ≤ (opcodeField w).toNat ∧ (opcodeField w).toNat ≤ 19) ∧
      srcField w ≠ regField w ∧ e = .reserved (opcodeField w) (regField w) (srcField w) := by
  rcases opcode_cases (opcodeField w) with h | h | h | h | h | h | h | h | h | h | h | h | h | h | h | h |
    h | h | h | h | h | h | h | h | h | h | h | h | h | h | h | h
  all_goals simp [decode, decodeTwice_eq_error_iff, h]

/-! ## The fields as the spec's numbers (30_encoding.md R50 to R58) -/

theorem regField_eq {w : InstrWord} {d : Reg} (h : w.extractLsb' 8 3 = BitVec.ofNat 3 d) : regField w = d := by
  rw [regField, h]
  exact Fin.ext (Nat.mod_eq_of_lt d.isLt)

theorem srcField_eq {w : InstrWord} {r : Reg} (h : w.extractLsb' 5 3 = BitVec.ofNat 3 r) : srcField w = r := by
  rw [srcField, h]
  exact Fin.ext (Nat.mod_eq_of_lt r.isLt)

theorem srcField_eq_regField_iff (w : InstrWord) :
    srcField w = regField w ↔ w.extractLsb' 5 3 = w.extractLsb' 8 3 := by
  simp [srcField, regField, ← BitVec.toNat_inj, Fin.ext_iff]

/-! ## The assembler accepts the usage lines (30_encoding.md R64, R66) -/

theorem asReg_val (r : Reg) : asReg r.val = .ok r := asReg_of_lt r.isLt

theorem asByte_toNat (b : Byte) : asByte b.toNat = .ok b := by
  rw [asByte, if_pos b.isLt, BitVec.ofNat_toNat, BitVec.setWidth_eq]

/-! Each usage line accepts its own operands. -/

section
variable (d r : Reg) (b : Byte)

theorem asmJ_addr (c : Addr → Instr) : asmJ [.addr b.toNat] c = .ok (c b) := by
  rw [asmJ, asByte_toNat]
  rfl

theorem asmR_reg (c : Reg → Instr) : asmR [.reg d] c = .ok (c d) := asmR_of_lt d.isLt c

theorem asmRL_reg_byte (c : Reg → Byte → Instr) : asmRL [.reg d, .lit b.toNat] c = .ok (c d b) := by
  rw [asmRL, asReg_val, asByte_toNat]
  rfl

theorem asmRR_reg_reg (c : Reg → Reg → Instr) : asmRR [.reg d, .reg r] c = .ok (c d r) := by
  rw [asmRR, asReg_val, asReg_val]
  rfl

theorem asmLoad_reg_cell (c : Reg → Addr → Instr) : asmLoad [.reg d, .cell b.toNat] c = .ok (c d b) := by
  rw [asmLoad, asReg_val, asByte_toNat]
  rfl

theorem asmStore_cell_reg (c : Addr → Reg → Instr) : asmStore [.cell b.toNat, .reg d] c = .ok (c b d) := by
  rw [asmStore, asReg_val, asByte_toNat]
  rfl

end

/-! Each usage line accepts no other kinds of operand. -/

section
variable {ops : List Operand} {i : Instr}

theorem kinds_of_asmN {c : Instr} (h : asmN ops c = .ok i) : ops.map Operand.kind = [] := by
  unfold asmN at h
  split at h
  · rfl
  · cases h

theorem kinds_of_asmJ {c : Addr → Instr} (h : asmJ ops c = .ok i) : ops.map Operand.kind = [.addr] := by
  unfold asmJ at h
  split at h
  · rfl
  · cases h

theorem kinds_of_asmR {c : Reg → Instr} (h : asmR ops c = .ok i) : ops.map Operand.kind = [.reg] := by
  unfold asmR at h
  split at h
  · rfl
  · cases h

theorem kinds_of_asmRL {c : Reg → Byte → Instr} (h : asmRL ops c = .ok i) :
    ops.map Operand.kind = [.reg, .lit] := by
  unfold asmRL at h
  split at h
  · rfl
  · cases h

theorem kinds_of_asmRR {c : Reg → Reg → Instr} (h : asmRR ops c = .ok i) :
    ops.map Operand.kind = [.reg, .reg] := by
  unfold asmRR at h
  split at h
  · rfl
  · cases h

theorem kinds_of_asmLoad {c : Reg → Addr → Instr} (h : asmLoad ops c = .ok i) :
    ops.map Operand.kind = [.reg, .cell] := by
  unfold asmLoad at h
  split at h
  · rfl
  · cases h

theorem kinds_of_asmStore {c : Addr → Reg → Instr} (h : asmStore ops c = .ok i) :
    ops.map Operand.kind = [.cell, .reg] := by
  unfold asmStore at h
  split at h
  · rfl
  · cases h

end

theorem kinds_of_assemble {st : Statement} {i : Instr} (h : assemble st = .ok i) :
    st.operands.map Operand.kind = st.mnemonic.usage := by
  obtain ⟨m, ops⟩ := st
  cases m
  case nop | reti | retc => exact kinds_of_asmN h
  case call | jmp | jz | jc | je | jg | js => exact kinds_of_asmJ h
  case movl | andl | orl | xorl | addl | subl | cmpl => exact kinds_of_asmRL h
  case movr | andr | orr | xorr | addr | subr | cmpr => exact kinds_of_asmRR h
  case ldr => exact kinds_of_asmLoad h
  case str => exact kinds_of_asmStore h
  case push | pop | not | rr | rl | swap | inc | dec | clr => exact kinds_of_asmR h

/-! An operand of a kind, in range, is the number of a field value. -/

section
variable {o : Operand}

theorem exists_reg_of_kind (hk : o.kind = .reg) (hr : o.inRange = true) : ∃ r : Reg, o = .reg r := by
  cases o <;> cases hk
  exact ⟨⟨_, of_decide_eq_true hr⟩, rfl⟩

theorem exists_lit_of_kind (hk : o.kind = .lit) (hr : o.inRange = true) : ∃ b : Byte, o = .lit b.toNat := by
  cases o <;> cases hk
  exact ⟨BitVec.ofNatLT _ (of_decide_eq_true hr), rfl⟩

theorem exists_addr_of_kind (hk : o.kind = .addr) (hr : o.inRange = true) : ∃ a : Addr, o = .addr a.toNat := by
  cases o <;> cases hk
  exact ⟨BitVec.ofNatLT _ (of_decide_eq_true hr), rfl⟩

theorem exists_cell_of_kind (hk : o.kind = .cell) (hr : o.inRange = true) : ∃ a : Addr, o = .cell a.toNat := by
  cases o <;> cases hk
  exact ⟨BitVec.ofNatLT _ (of_decide_eq_true hr), rfl⟩

end

/-! The operands of a usage line that shows two, or one. -/

theorem exists_pair_of_kinds {ops : List Operand} {k l : OperandKind} (hk : ops.map Operand.kind = [k, l])
    (hr : ops.all Operand.inRange = true) :
    ∃ o p, ops = [o, p] ∧ (o.kind = k ∧ o.inRange = true) ∧ p.kind = l ∧ p.inRange = true := by
  obtain ⟨o, tail, rfl, rfl, htail⟩ := List.map_eq_cons_iff.mp hk
  obtain ⟨p, rfl, rfl⟩ := List.map_eq_singleton_iff.mp htail
  simpa using hr

theorem exists_single_of_kinds {ops : List Operand} {k : OperandKind} (hk : ops.map Operand.kind = [k])
    (hr : ops.all Operand.inRange = true) : ∃ o, ops = [o] ∧ o.kind = k ∧ o.inRange = true := by
  obtain ⟨o, rfl, rfl⟩ := List.map_eq_singleton_iff.mp hk
  simpa using hr

/-- Operands of a usage line's kinds, in range, assemble. -/
theorem assemble_of_wellFormed {m : Mnemonic} {ops : List Operand} (hk : ops.map Operand.kind = m.usage)
    (hr : ops.all Operand.inRange = true) : ∃ i, assemble ⟨m, ops⟩ = .ok i := by
  cases m
  case nop | reti | retc =>
    obtain rfl := List.map_eq_nil_iff.mp hk
    exact ⟨_, rfl⟩
  case call | jmp | jz | jc | je | jg | js =>
    obtain ⟨_, rfl, hk, hr⟩ := exists_single_of_kinds hk hr
    obtain ⟨a, rfl⟩ := exists_addr_of_kind hk hr
    exact ⟨_, asmJ_addr a _⟩
  case push | pop | not | rr | rl | swap | inc | dec | clr =>
    obtain ⟨_, rfl, hk, hr⟩ := exists_single_of_kinds hk hr
    obtain ⟨r, rfl⟩ := exists_reg_of_kind hk hr
    exact ⟨_, asmR_reg r _⟩
  case movl | andl | orl | xorl | addl | subl | cmpl =>
    obtain ⟨_, _, rfl, ⟨hkd, hrd⟩, hkl, hrl⟩ := exists_pair_of_kinds hk hr
    obtain ⟨d, rfl⟩ := exists_reg_of_kind hkd hrd
    obtain ⟨l, rfl⟩ := exists_lit_of_kind hkl hrl
    exact ⟨_, asmRL_reg_byte d l _⟩
  case movr | andr | orr | xorr | addr | subr | cmpr =>
    obtain ⟨_, _, rfl, ⟨hkd, hrd⟩, hkr, hrr⟩ := exists_pair_of_kinds hk hr
    obtain ⟨d, rfl⟩ := exists_reg_of_kind hkd hrd
    obtain ⟨r, rfl⟩ := exists_reg_of_kind hkr hrr
    exact ⟨_, asmRR_reg_reg d r _⟩
  case ldr =>
    obtain ⟨_, _, rfl, ⟨hkd, hrd⟩, hka, hra⟩ := exists_pair_of_kinds hk hr
    obtain ⟨d, rfl⟩ := exists_reg_of_kind hkd hrd
    obtain ⟨a, rfl⟩ := exists_cell_of_kind hka hra
    exact ⟨_, asmLoad_reg_cell d a _⟩
  case str =>
    obtain ⟨_, _, rfl, ⟨hka, hra⟩, hkr, hrr⟩ := exists_pair_of_kinds hk hr
    obtain ⟨a, rfl⟩ := exists_cell_of_kind hka hra
    obtain ⟨r, rfl⟩ := exists_reg_of_kind hkr hrr
    exact ⟨_, asmStore_cell_reg r a _⟩

/-- The usage line of an instruction with its operands filled in (30_encoding.md R64). -/
def usageLine : Instr → Statement
  | .nop => ⟨.nop, []⟩
  | .reti => ⟨.reti, []⟩
  | .retc => ⟨.retc, []⟩
  | .call a => ⟨.call, [.addr a.toNat]⟩
  | .jmp a => ⟨.jmp, [.addr a.toNat]⟩
  | .jz a => ⟨.jz, [.addr a.toNat]⟩
  | .jc a => ⟨.jc, [.addr a.toNat]⟩
  | .je a => ⟨.je, [.addr a.toNat]⟩
  | .jg a => ⟨.jg, [.addr a.toNat]⟩
  | .js a => ⟨.js, [.addr a.toNat]⟩
  | .movl d l => ⟨.movl, [.reg d, .lit l.toNat]⟩
  | .movr d r => ⟨.movr, [.reg d, .reg r]⟩
  | .ldr d a => ⟨.ldr, [.reg d, .cell a.toNat]⟩
  | .str a r => ⟨.str, [.cell a.toNat, .reg r]⟩
  | .push r => ⟨.push, [.reg r]⟩
  | .pop d => ⟨.pop, [.reg d]⟩
  | .not r => ⟨.not, [.reg r]⟩
  | .rr r => ⟨.rr, [.reg r]⟩
  | .rl r => ⟨.rl, [.reg r]⟩
  | .swap r => ⟨.swap, [.reg r]⟩
  | .andl d l => ⟨.andl, [.reg d, .lit l.toNat]⟩
  | .andr d r => ⟨.andr, [.reg d, .reg r]⟩
  | .orl d l => ⟨.orl, [.reg d, .lit l.toNat]⟩
  | .orr d r => ⟨.orr, [.reg d, .reg r]⟩
  | .xorl d l => ⟨.xorl, [.reg d, .lit l.toNat]⟩
  | .xorr d r => ⟨.xorr, [.reg d, .reg r]⟩
  | .addl d l => ⟨.addl, [.reg d, .lit l.toNat]⟩
  | .addr d r => ⟨.addr, [.reg d, .reg r]⟩
  | .subl d l => ⟨.subl, [.reg d, .lit l.toNat]⟩
  | .subr d r => ⟨.subr, [.reg d, .reg r]⟩
  | .cmpl d l => ⟨.cmpl, [.reg d, .lit l.toNat]⟩
  | .cmpr d r => ⟨.cmpr, [.reg d, .reg r]⟩

theorem assemble_usageLine (i : Instr) : assemble (usageLine i) = .ok i := by
  cases i
  case nop | reti | retc => rfl
  case call | jmp | jz | jc | je | jg | js => exact asmJ_addr _ _
  case push | pop | not | rr | rl | swap => exact asmR_reg _ _
  case movl | andl | orl | xorl | addl | subl | cmpl => exact asmRL_reg_byte _ _ _
  case movr | andr | orr | xorr | addr | subr | cmpr => exact asmRR_reg_reg _ _ _
  case ldr => exact asmLoad_reg_cell _ _ _
  case str => exact asmStore_cell_reg _ _ _

end Sys2Proof

namespace Sys2Proof.Machine

/-- A reserved word stops the step before anything is executed (30_encoding.md R61). -/
theorem step_of_reserved {s : State} {w : InstrWord} {e : DecodeError} (ha : ¬ Spec.Accepted s)
    (hw : s.program.word s.pc = some w) (he : decode w = .error e) :
    step s = .fault (.reservedEncoding s.pc w) := by
  have hf : fetch s.passBoundary = .ok w := by simp [fetch, hw]
  have hd : decodeFetched w s.passBoundary = .error (.reservedEncoding s.pc w) := by
    simp [decodeFetched, he]
  rw [step, acceptsInterrupt_of_not_accepted ha, hf, andThen_ok, hd]
  rfl

end Sys2Proof.Machine

/-! CLAIMS. The decoder, the encoder and the assembler (30_encoding.md R59 to R67). -/

namespace Sys2Proof

/-- Settles O1: the fields of a canonical word are its operands, and a decoded word rebuilt from its fields is its
canonical word. -/
theorem decodeEncodeRoundTrip : Obligations.DecodeEncodeRoundTrip :=
  ⟨decode_encode, fun _ _ => encode_of_decode⟩

/-- Settles O2: once the fields are named, each opcode evaluates to its arm of the decoder. -/
theorem decodeFollowsOpcodeMap : Obligations.DecodeFollowsOpcodeMap := by
  intro w op d r imm hop hd hr himm
  have hop : opcodeField w = op := hop
  have himm : immField w = imm := himm
  have hd := regField_eq hd
  have hr := srcField_eq hr
  have hreserved : 16 ≤ op.toNat → op.toNat ≤ 19 → d ≠ r → decode w = .error (.reserved op d r) :=
    fun hlo hhi hne => (decode_eq_error_iff w _).mpr (by simp [hop, hd, hr, hlo, hhi, hne.symm])
  refine ⟨?_, ?_, ?_, ?_, ?_, ?_, ?_, ?_, ?_, ?_, ?_, ?_, ?_, ?_, ?_, ?_, ?_, ?_, ?_, ?_, hreserved,
    ?_, ?_, ?_, ?_, ?_, ?_, ?_, ?_, ?_, ?_, ?_, ?_⟩
  all_goals
    rintro rfl
    simp +contextual [decode, decodeTwice, hop, hd, hr, himm]

/-- Settles O4: format RD alone makes a check, and the step makes it before it executes. -/
theorem reservedWordsFault : Obligations.ReservedWordsFault := by
  refine ⟨fun w => ?_, fun s w e => Machine.step_of_reserved⟩
  rw [← and_assoc, Ne, ← srcField_eq_regField_iff w]
  simp [decode_eq_error_iff, opcodeField]

/-- Settles O6: the decoder evaluates on each word. -/
theorem sampleWordsDecode : Obligations.SampleWordsDecode := ⟨rfl, rfl, rfl, rfl, rfl, rfl, rfl⟩

/-- Settles O7: a usage line accepts operands of its kinds and in range, and no others. -/
theorem assemblerAcceptsExactlyUsageLines : Obligations.AssemblerAcceptsExactlyUsageLines := by
  refine ⟨fun st => ?_, fun i => ⟨usageLine i, assemble_usageLine i⟩⟩
  rw [Statement.wellFormed, Bool.and_eq_true, beq_iff_eq]
  exact ⟨fun ⟨_, h⟩ => ⟨kinds_of_assemble h, inRange_of_assemble h⟩,
    fun ⟨hkinds, hrange⟩ => assemble_of_wellFormed hkinds hrange⟩

end Sys2Proof

/-! SUPPORT. The frame of every instruction: what it leaves as it was, in one statement (10_state.md R11, R17, R23,
R27). -/

namespace Sys2Proof.Machine

/-! ## Flags outside the written ones -/

section
variable {f : Flags} {n : FlagName}

theorem get_of_not_mem_zf {z : Bool} (h : n ∉ [FlagName.zf]) : ({ f with zf := z } : Flags).get n = f.get n := by
  cases n <;> simp [Flags.get] at h ⊢

theorem get_of_not_mem_cf_zf {c z : Bool} (h : n ∉ [FlagName.cf, .zf]) :
    ({ f with cf := c, zf := z } : Flags).get n = f.get n := by
  cases n <;> simp [Flags.get] at h ⊢

theorem get_of_not_mem_zf_cf {c z : Bool} (h : n ∉ [FlagName.zf, .cf]) :
    ({ f with cf := c, zf := z } : Flags).get n = f.get n := by
  cases n <;> simp [Flags.get] at h ⊢

theorem get_of_not_mem_compare {e g l : Bool} (h : n ∉ [FlagName.ef, .sf, .gf]) :
    ({ f with ef := e, gf := g, sf := l } : Flags).get n = f.get n := by
  cases n <;> simp [Flags.get] at h ⊢

end

/-- From `s` to `t` nothing changed that the tables of the spec do not let the instruction `i` change. A field that
`t` takes over from `s` needs no proof. -/
structure Frame (i : Instr) (s t : State) : Prop where
  regs : ∀ r, Spec.destination i ≠ some r → t.reg r = s.reg r := by intros; rfl
  flags : ∀ n, n ∉ Spec.flagsWritten s.cfg.irqSavesFlags i → t.flags.get n = s.flags.get n := by intros; rfl
  stack : Spec.usesStack i = false → t.stack = s.stack := by intros; rfl
  inService : i ≠ .reti → t.inService = s.inService := by intros; rfl
  data : (∀ a r, i ≠ .str a r) → t.data = s.data := by intros; rfl
  deviceWrites : (∀ a r, i ≠ .str a r) → t.deviceWrites = s.deviceWrites := by intros; rfl
  deviceReads : (∀ r a, i ≠ .ldr r a) → t.deviceReads = s.deviceReads := by intros; rfl
  program : t.program = s.program := by rfl
  cfg : t.cfg = s.cfg := by rfl
  irqLine : t.irqLine = s.irqLine := by rfl
  irqAfter : t.irqAfter = s.irqAfter := by rfl
  boundary : t.boundary = s.boundary := by rfl

theorem reg_of_ne_destination {s : State} {d r : Reg} (v : Byte) (h : some d ≠ some r) :
    ({ s with regs := s.regs.set d v } : State).reg r = s.reg r :=
  State.reg_setReg_of_ne s v fun e => h (congrArg some e.symm)

/-- An instruction that goes on keeps its frame. -/
theorem frame_of_exec {i : Instr} {s t : State} (h : exec i s = .next t) : Frame i s t := by
  cases i with
  | nop =>
    obtain rfl := next_of_execNop h
    exact {}
  | jmp a =>
    obtain rfl := next_of_execJmp h
    exact {}
  | jz a | jc a | je a | jg a | js a => rcases next_of_branchOn h with ⟨-, rfl⟩ | ⟨-, -, rfl⟩ <;> exact {}
  | call a =>
    obtain ⟨-, -, rfl⟩ := next_of_execCall h
    exact { stack := nofun }
  | retc =>
    obtain ⟨a, rest, -, rfl⟩ := next_of_execRetc h
    exact { stack := nofun }
  | reti =>
    obtain ⟨a, f, rest, -, rfl⟩ := next_of_execReti h
    refine { stack := nofun, inService := fun h => absurd rfl h, flags := fun n hn => ?_ }
    cases hsaves : s.cfg.irqSavesFlags with
    | true => cases n <;> simp [Spec.flagsWritten, hsaves] at hn
    | false => rfl
  | push rs =>
    obtain ⟨-, rfl⟩ := next_of_execPush h
    exact { stack := nofun }
  | pop rd =>
    obtain ⟨v, rest, -, rfl⟩ := next_of_execPop h
    exact { stack := nofun, regs := fun r => reg_of_ne_destination v }
  | movl rd l =>
    obtain rfl := next_of_execMovl h
    exact { regs := fun r => reg_of_ne_destination _ }
  | movr rd rs =>
    obtain rfl := next_of_execMovr h
    exact { regs := fun r => reg_of_ne_destination _ }
  | ldr rd a =>
    rcases next_of_execLdr h with ⟨v, -, -, rfl⟩ | ⟨-, rfl⟩
    · exact { regs := fun r => reg_of_ne_destination v }
    · exact { regs := fun r => reg_of_ne_destination _, deviceReads := fun h => absurd rfl (h rd a) }
  | str a rs =>
    rcases next_of_execStr h with ⟨-, rfl⟩ | ⟨-, rfl⟩
    · exact { data := fun h => absurd rfl (h a rs) }
    · exact { deviceWrites := fun h => absurd rfl (h a rs) }
  | not r =>
    obtain rfl := next_of_execNot h
    exact { regs := fun r => reg_of_ne_destination _, flags := fun n => get_of_not_mem_zf }
  | swap r =>
    obtain rfl := next_of_execSwap h
    exact { regs := fun r => reg_of_ne_destination _, flags := fun n => get_of_not_mem_zf }
  | rr r =>
    obtain rfl := next_of_execRr h
    exact { regs := fun r => reg_of_ne_destination _, flags := fun n => get_of_not_mem_cf_zf }
  | rl r =>
    obtain rfl := next_of_execRl h
    exact { regs := fun r => reg_of_ne_destination _, flags := fun n => get_of_not_mem_cf_zf }
  | andl rd b | andr rd b | orl rd b | orr rd b | xorl rd b | xorr rd b =>
    obtain rfl := next_of_aluLogic h
    exact { regs := fun r => reg_of_ne_destination _, flags := fun n => get_of_not_mem_zf }
  | addl rd b | addr rd b =>
    obtain rfl := next_of_aluAdd h
    exact { regs := fun r => reg_of_ne_destination _, flags := fun n => get_of_not_mem_zf_cf }
  | subl rd b | subr rd b =>
    obtain rfl := next_of_aluSub h
    exact { regs := fun r => reg_of_ne_destination _, flags := fun n => get_of_not_mem_zf_cf }
  | cmpl rd b | cmpr rd b =>
    obtain rfl := next_of_aluCompare h
    exact { flags := fun n => get_of_not_mem_compare }

/-! ## The data space (10_state.md R22) -/

theorem memRead_of_unwritten {a : Addr} {s : State} (hk : s.kindAt a = .ram) (hv : s.data.read a = none) :
    memRead a s = .error (.unwrittenRead s.pc a) := by
  simp [memRead, hk, hv]

theorem memRead_of_absent {a : Addr} {s : State} (hk : s.kindAt a = .absent) :
    memRead a s = .error (.unmappedData s.pc a) := by
  simp [memRead, hk]

theorem memWrite_of_absent {a : Addr} {s : State} (v : Byte) (hk : s.kindAt a = .absent) :
    memWrite a v s = .error (.unmappedData s.pc a) := by
  simp [memWrite, hk]

/-- Every cell but the one STR names reads as before (41_register_memory.md R93). -/
theorem read_of_exec {i : Instr} {s t : State} {a : Addr} (h : exec i s = .next t)
    (ha : Spec.storeAddress i ≠ some a) : t.data.read a = s.data.read a := by
  by_cases hstr : ∃ b rs, i = .str b rs
  · obtain ⟨b, rs, rfl⟩ := hstr
    have hne : a ≠ b := fun e => ha (congrArg some e.symm)
    rcases next_of_execStr h with ⟨-, rfl⟩ | ⟨-, rfl⟩
    · exact Memory.read_write_of_ne s.data (s.reg rs) hne
    · rfl
  · rw [(frame_of_exec h).data fun b rs e => hstr ⟨b, rs, e⟩]

/-- The data space stays canonical (10_state.md R22). -/
theorem data_wf_of_exec {i : Instr} {s t : State} (h : exec i s = .next t) (hs : s.data.wf = true) :
    t.data.wf = true := by
  by_cases hstr : ∃ b rs, i = .str b rs
  · obtain ⟨b, rs, rfl⟩ := hstr
    rcases next_of_execStr h with ⟨-, rfl⟩ | ⟨-, rfl⟩
    · exact Memory.wf_write b (s.reg rs) hs
    · exact hs
  · rwa [(frame_of_exec h).data fun b rs e => hstr ⟨b, rs, e⟩]

/-! ## The stack -/

/-- What an instruction that goes on can do to the stack and to in_service: leave both, push or pop an entry that is no
interrupt frame, or remove a frame, go to its address and clear the bit (10_state.md R25 to R27). -/
inductive StackChange (s t : State) : Prop
  | kept (stack : t.stack = s.stack) (bit : t.inService = s.inService)
  | pushed (e : Entry) (kind : e.kind ≠ .irq) (room : s.stack.length ≠ s.cfg.stackDepth)
      (stack : t.stack = e :: s.stack) (bit : t.inService = s.inService)
  | popped (e : Entry) (kind : e.kind ≠ .irq) (stack : s.stack = e :: t.stack) (bit : t.inService = s.inService)
  | returned (f : Option Flags) (stack : s.stack = .irq t.pc f :: t.stack) (bit : t.inService = false)

theorem stackChange_of_exec {i : Instr} {s t : State} (h : exec i s = .next t) : StackChange s t := by
  cases hi : Spec.usesStack i with
  | false =>
    have hframe := frame_of_exec h
    have hreti : i ≠ .reti := fun e => by simp [e, Spec.usesStack] at hi
    exact .kept (hframe.stack hi) (hframe.inService hreti)
  | true =>
    cases i with
    | push rs =>
      obtain ⟨hroom, rfl⟩ := next_of_execPush h
      exact .pushed (.data (s.reg rs)) nofun hroom rfl rfl
    | call a =>
      obtain ⟨-, hroom, rfl⟩ := next_of_execCall h
      exact .pushed (.call (s.pc + 1#8)) nofun hroom rfl rfl
    | pop rd =>
      obtain ⟨v, rest, hs, rfl⟩ := next_of_execPop h
      exact .popped (.data v) nofun hs rfl
    | retc =>
      obtain ⟨a, rest, hs, rfl⟩ := next_of_execRetc h
      exact .popped (.call a) nofun hs rfl
    | reti =>
      obtain ⟨a, f, rest, hs, rfl⟩ := next_of_execReti h
      exact .returned f hs rfl
    | _ => cases hi

end Sys2Proof.Machine

/-! SUPPORT. What a step keeps: the instruction space, the parameters and the machine's invariant
(10_state.md R21 to R27). -/

namespace Sys2Proof.Machine

/-- A step that goes on enters an interrupt or executes an instruction, in the state past its boundary. -/
theorem cases_of_step {s t : State} (h : step s = .next t) :
    (Spec.Accepted s ∧ enterInterrupt (Spec.pastBoundary s) = .next t) ∨
    ¬ Spec.Accepted s ∧ ∃ w i, s.program.word s.pc = some w ∧ decode w = .ok i ∧
      exec i (Spec.pastBoundary s) = .next t := by
  by_cases ha : Spec.Accepted s
  · exact .inl ⟨ha, (step_of_accepted ha).symm.trans h⟩
  · exact .inr ⟨ha, exec_of_step ha h⟩

theorem program_cfg_of_step {s t : State} (h : step s = .next t) : t.program = s.program ∧ t.cfg = s.cfg := by
  rcases cases_of_step h with ⟨-, hentry⟩ | ⟨-, w, i, -, -, hexec⟩
  · obtain ⟨-, rfl⟩ := next_of_enterInterrupt hentry
    exact ⟨rfl, rfl⟩
  · have hframe := frame_of_exec hexec
    exact ⟨hframe.program, hframe.cfg⟩

end Sys2Proof.Machine

namespace Sys2Proof.Safety

open Sys2Proof.Machine

@[simp] theorem isIrq_irq (a : Addr) (f : Option Flags) : isIrq (.irq a f) = true := rfl

theorem isIrq_of_kind {e : Entry} (h : e.kind ≠ .irq) : isIrq e = false := decide_eq_false h

theorem savesAsConfigured_of_kind {e : Entry} (c : Config) (h : e.kind ≠ .irq) : savesAsConfigured c e = true := by
  cases e with
  | data v => rfl
  | call a => rfl
  | irq a f => exact absurd rfl h

/-- The invariant does not speak of the schedule. -/
theorem Inv.pastBoundary {s : State} (hs : Inv s) : Inv (Spec.pastBoundary s) :=
  ⟨hs.data_wf, hs.program_wf, hs.stack_le, hs.frames, hs.one_frame, hs.no_irq⟩

/-- Interrupt entry puts the one frame on a stack that has none (60_exceptions.md R167, R169). -/
theorem Inv.enterInterrupt {s t : State} (hs : Inv s) (hpresent : s.cfg.irqPresent = true)
    (hfree : s.inService = false) (h : enterInterrupt s = .next t) : Inv t := by
  obtain ⟨hroom, rfl⟩ := next_of_enterInterrupt h
  have hle := hs.stack_le
  have hnone := hs.one_frame
  exact {
    data_wf := hs.data_wf
    program_wf := hs.program_wf
    stack_le := by simp only [List.length_cons]; omega
    frames := by cases hsv : s.cfg.irqSavesFlags <;> simpa [savesAsConfigured, hsv] using hs.frames
    one_frame := by
      rw [List.countP_cons_of_pos (isIrq_irq _ _), hnone, hfree]
      rfl
    no_irq := fun h => by simp [hpresent] at h }

/-- An instruction's change of the stack keeps the frames in step with in_service (10_state.md R24 to R27). -/
theorem Inv.of_exec {i : Instr} {s t : State} (hs : Inv s) (h : exec i s = .next t) : Inv t := by
  have hframe := frame_of_exec h
  have hprogram : t.program.wf = true := hframe.program ▸ hs.program_wf
  have hdata := data_wf_of_exec h hs.data_wf
  obtain ⟨-, -, hle, hframes, hone, hno⟩ := hs
  rw [← hframe.cfg] at hle hframes hno
  cases stackChange_of_exec h with
  | kept hstack hbit =>
    rw [← hstack] at hle hframes hone
    rw [← hbit] at hone hno
    exact ⟨hdata, hprogram, hle, hframes, hone, hno⟩
  | pushed e hkind hroom hstack hbit =>
    rw [← hbit] at hone hno
    rw [← hframe.cfg] at hroom
    refine ⟨hdata, hprogram, ?_, ?_, ?_, hno⟩
    · rw [hstack, List.length_cons]
      omega
    · rw [hstack, List.all_cons, savesAsConfigured_of_kind _ hkind, hframes, Bool.and_self]
    · rw [hstack, List.countP_cons_of_neg (by simp [isIrq_of_kind hkind]), hone]
  | popped e hkind hstack hbit =>
    rw [hstack, List.length_cons] at hle
    rw [hstack, List.all_cons, Bool.and_eq_true] at hframes
    rw [hstack, List.countP_cons_of_neg (by simp [isIrq_of_kind hkind]), ← hbit] at hone
    rw [← hbit] at hno
    exact ⟨hdata, hprogram, by omega, hframes.2, hone, hno⟩
  | returned f hstack hbit =>
    rw [hstack, List.length_cons] at hle
    rw [hstack, List.all_cons, Bool.and_eq_true] at hframes
    rw [hstack, List.countP_cons_of_pos (isIrq_irq _ _)] at hone
    have hnone : t.stack.countP isIrq = 0 := by split at hone <;> omega
    exact ⟨hdata, hprogram, by omega, hframes.2, by simp [hnone, hbit], fun _ => hbit⟩

/-- In every launch state the stack is empty and no interrupt is in service. -/
theorem inv_launch (c : Config) {p : Program} {cells : Memory} (u : Unspecified) (hp : p.wf = true)
    (hcells : cells.wf = true) : Inv (State.launch c p cells u) :=
  ⟨hcells, hp, Nat.zero_le _, rfl, rfl, fun _ => rfl⟩

end Sys2Proof.Safety

namespace Sys2Proof.Machine

/-! ## Nothing is refused -/

theorem exec_ne_refused (i : Instr) (s : State) (r : Refusal) : exec i s ≠ .refused r := by
  cases i with
  | nop | movl rd l | movr rd rs | not rd | rr rd | rl rd | swap rd => exact advance_ne_refused _ r
  | andl rd b | andr rd b | orl rd b | orr rd b | xorl rd b | xorr rd b | addl rd b | addr rd b
  | subl rd b | subr rd b | cmpl rd b | cmpr rd b => exact advance_ne_refused _ r
  | jz a | jc a | je a | jg a | js a => exact branchOn_ne_refused _ a s r
  | jmp a => exact nofun
  | call a =>
    show execCall a s ≠ _
    unfold execCall
    split
    · exact nofun
    · exact andThen_ne_refused r fun t => nofun
  | retc | reti => exact andThen_ne_refused r fun p => nofun
  | ldr rd a | pop rd => exact andThen_ne_refused r fun p => advance_ne_refused _ r
  | str a rs | push rs => exact andThen_ne_refused r fun t => advance_ne_refused t r

theorem step_ne_refused (s : State) (r : Refusal) : step s ≠ .refused r := by
  unfold step
  split
  · exact andThen_ne_refused r fun t => nofun
  · exact andThen_ne_refused r fun w => andThen_ne_refused r fun i => exec_ne_refused i _ r

/-! ## What does not read the data space (10_state.md R23) -/

/-- The data space replaced. -/
def State.withData (m : Memory) (s : State) : State := { s with data := m }

section
variable (m : Memory)

theorem advance_withData (s : State) :
    advance (s.withData m) = Spec.mapNext (State.withData m) (advance s) := by
  by_cases h : s.pc = 0xFF#8
  · rw [advance_of_eq h]
    exact advance_of_eq h
  · rw [advance_of_ne h]
    exact advance_of_ne h

/-- A state that differs in the data space alone advances alike. -/
theorem advance_of_eq_withData {s t : State} (h : t = s.withData m) :
    advance t = Spec.mapNext (State.withData m) (advance s) := by
  rw [h, advance_withData]

theorem branchOn_withData (n : FlagName) (a : Addr) (s : State) :
    branchOn n a (s.withData m) = Spec.mapNext (State.withData m) (branchOn n a s) := by
  cases h : s.flags.get n with
  | true =>
    rw [branchOn_of_set h]
    exact branchOn_of_set h
  | false =>
    rw [branchOn_of_clear h, ← advance_withData]
    exact branchOn_of_clear h

theorem pushEntry_withData (e : Entry) (s : State) :
    pushEntry e (s.withData m) = (pushEntry e s).map (State.withData m) := by
  by_cases h : s.stack.length = s.cfg.stackDepth
  · rw [pushEntry_of_full h]
    exact pushEntry_of_full h
  · rw [pushEntry_of_room h]
    exact pushEntry_of_room h

theorem popEntry_withData {α : Type} (k : EntryKind) (payload : Entry → Option α) (s : State) :
    popEntry k payload (s.withData m) = (popEntry k payload s).map (Prod.map id (State.withData m)) := by
  cases hs : s.stack with
  | nil =>
    rw [popEntry_of_empty hs]
    exact popEntry_of_empty hs
  | cons e rest =>
    cases hp : payload e with
    | none =>
      rw [popEntry_of_mismatch hs hp]
      exact popEntry_of_mismatch hs hp
    | some p =>
      rw [popEntry_of_match hs hp]
      exact popEntry_of_match hs hp

theorem execCall_withData (a : Addr) (s : State) :
    execCall a (s.withData m) = Spec.mapNext (State.withData m) (execCall a s) := by
  have hpc : (s.withData m).pc = s.pc := rfl
  unfold execCall
  rw [hpc]
  split
  · rfl
  · rw [pushEntry_withData]
    exact andThen_map fun _ => rfl

/-- An instruction that neither loads nor stores does the same over any data space (10_state.md R23). -/
theorem exec_withData {i : Instr} (s : State) (hldr : ∀ r a, i ≠ .ldr r a) (hstr : ∀ a r, i ≠ .str a r) :
    exec i (s.withData m) = Spec.mapNext (State.withData m) (exec i s) := by
  cases i with
  | ldr rd a => exact absurd rfl (hldr rd a)
  | str a rs => exact absurd rfl (hstr a rs)
  | jmp a => rfl
  | jz a | jc a | je a | jg a | js a => exact branchOn_withData m _ a s
  | call a => exact execCall_withData m a s
  | retc =>
    show andThen (popCall (s.withData m)) _ = _
    rw [popCall, popEntry_withData]
    exact andThen_map fun _ => rfl
  | reti =>
    show andThen (popIrq (s.withData m)) _ = _
    rw [popIrq, popEntry_withData]
    exact andThen_map fun _ => rfl
  | push rs =>
    show andThen (pushEntry (.data (s.reg rs)) (s.withData m)) _ = _
    rw [pushEntry_withData]
    exact andThen_map (advance_withData m)
  | pop rd =>
    show andThen (popData (s.withData m)) _ = _
    rw [popData, popEntry_withData]
    exact andThen_map fun p => advance_withData m (p.2.setReg rd p.1)
  | nop | movl rd l | movr rd rs | not r | swap r | rr r | rl r => exact advance_of_eq_withData m rfl
  | andl rd b | andr rd b | orl rd b | orr rd b | xorl rd b | xorr rd b | addl rd b | addr rd b
  | subl rd b | subr rd b | cmpl rd b | cmpr rd b => exact advance_of_eq_withData m rfl

/-- STR reads no cell: it stores the same value over any data space (41_register_memory.md R93). -/
theorem execStr_withData (a : Addr) (rs : Reg) (s : State) :
    execStr a rs (s.withData m) =
      Spec.mapNext (State.withData (if s.kindAt a = .ram then m.write a (s.reg rs) else m)) (execStr a rs s) := by
  have hkind : (s.withData m).kindAt a = s.kindAt a := rfl
  cases hk : s.kindAt a with
  | ram =>
    rw [execStr, execStr, memWrite_of_ram _ (hkind.trans hk), memWrite_of_ram _ hk]
    exact advance_of_eq_withData _ rfl
  | device =>
    rw [execStr, execStr, memWrite_of_device _ (hkind.trans hk), memWrite_of_device _ hk]
    exact advance_of_eq_withData _ rfl
  | absent =>
    rw [execStr, execStr, memWrite_of_absent _ (hkind.trans hk), memWrite_of_absent _ hk]
    rfl

end

end Sys2Proof.Machine

/-! CLAIMS. The machine's invariant (10_state.md R22 to R27; 60_exceptions.md R163, R169). -/

namespace Sys2Proof.Safety

open Sys2Proof.Machine

/-- Settles O44: entry pushes the one frame and sets in_service, RETI removes it and clears the bit, and no other
change of the stack touches a frame. -/
theorem stepKeepsInvariant : Obligations.StepKeepsInvariant := by
  intro s t hs h
  rcases cases_of_step h with ⟨⟨hpresent, -, hfree⟩, hentry⟩ | ⟨-, w, i, -, -, hexec⟩
  · exact hs.pastBoundary.enterInterrupt hpresent hfree hentry
  · exact hs.pastBoundary.of_exec hexec

/-- Settles O45: an empty stack holds no frame. -/
theorem launchStatesSatisfyInvariant : Obligations.LaunchStatesSatisfyInvariant := by
  exact ⟨inv_launch bootConfig Unspecified.zero rfl rfl, fun c p cells u => inv_launch c u,
    fun s u hp => ⟨Memory.wf_empty, hp, Nat.zero_le _, rfl, rfl, fun _ => rfl⟩⟩

end Sys2Proof.Safety

/-! CLAIMS. What instructions and steps leave alone, what they do not read, and that none is refused
(10_state.md R11, R17, R21, R23). -/

namespace Sys2Proof.Machine

/-- Settles O35. -/
theorem onlyTheDestinationRegisterChanges : Obligations.OnlyTheDestinationRegisterChanges :=
  fun _ _ _ h => (frame_of_exec h).regs

/-- Settles O36. -/
theorem onlyTheNamedFlagsChange : Obligations.OnlyTheNamedFlagsChange :=
  fun _ _ _ h => (frame_of_exec h).flags

/-- Settles O37. -/
theorem storesChangeOnlyByTheirWriters : Obligations.StoresChangeOnlyByTheirWriters := by
  intro i s t h
  have hf := frame_of_exec h
  exact ⟨hf.program, hf.cfg, hf.irqLine, hf.irqAfter, hf.boundary, hf.stack, hf.inService,
    fun hi => ⟨hf.data hi, hf.deviceWrites hi⟩, hf.deviceReads⟩

/-- Settles O38: STR alone writes the data space, one cell of it. -/
theorem otherCellsReadAsBefore : Obligations.OtherCellsReadAsBefore :=
  fun _ _ _ h _ => read_of_exec h

/-- Settles O39: interrupt entry and every instruction keep both. -/
theorem stepKeepsProgramAndParameters : Obligations.StepKeepsProgramAndParameters :=
  fun _ _ => program_cfg_of_step

/-- Settles O40: every meaning ends in an advance, a jump or a fault of a primitive. -/
theorem nothingIsRefused : Obligations.NothingIsRefused := ⟨exec_ne_refused, step_ne_refused⟩

/-- Settles O41: the remapping of the instruction space alone. -/
theorem instructionSpaceIsInvisible : Obligations.InstructionSpaceIsInvisible := by
  intro i s p
  by_cases hi : i = .reti
  · subst hi
    exact execReti_remap (β := id) (π := fun _ => p) s
  · exact exec_remap (φ := id) (β := id) (π := fun _ => p) i s hi fun _ => rfl

/-- Settles O42: no shared operation but `memRead` looks at the data space. -/
theorem dataSpaceIsReadOnlyByLdr : Obligations.DataSpaceIsReadOnlyByLdr :=
  ⟨fun _ s m hldr hstr => exec_withData m s hldr hstr, fun a r s m => execStr_withData m a r s⟩

end Sys2Proof.Machine

/-! SUPPORT. What the ALU answers away from the top address, as the laws of 42_alu_single.md and 43_alu_two.md
state it. -/

namespace Sys2Proof.Machine

/-! ## Addition, subtraction, comparison (43_alu_two.md R131 to R133) -/

section
variable {i : Instr} {s : State} {rd : Reg} {b : Operand2}

theorem adds_of_aluAdd (hpc : s.pc ≠ 0xFF#8) (hi : exec i s = aluAdd rd b s) :
    Spec.Adds i s rd (s.reg rd) (operandValue s b) := by
  refine ⟨addResult (s.reg rd) (operandValue s b), ?_, hi.trans (advance_of_ne hpc), fun hlo hhi => ?_⟩
  · rw [addResult_eq, BitVec.toNat_add]
  · rw [addResult_eq, BitVec.toInt_add, Int.bmod_eq_of_le_mul_two (by omega) (by omega)]

theorem subtracts_of_aluSub (hpc : s.pc ≠ 0xFF#8) (hi : exec i s = aluSub rd b s) :
    Spec.Subtracts i s rd (s.reg rd) (operandValue s b) := by
  refine ⟨subResult (s.reg rd) (operandValue s b), toNat_subResult _ _, hi.trans (advance_of_ne hpc), ?_⟩
  rw [subResult_eq]
  exact sub_eq_zero

end

/-! Bit 7 is the sign, and it separates the two halves of the unsigned range. -/

theorem top_eq_decide (v : Byte) : v.getLsbD 7 = decide (128 ≤ v.toNat) :=
  (BitVec.msb_eq_getLsbD_last v).symm.trans (BitVec.msb_eq_decide v)

theorem toInt_of_top {v : Byte} (h : v.getLsbD 7 = true) : 128 ≤ v.toNat ∧ v.toInt = v.toNat - 256 := by
  refine ⟨of_decide_eq_true ((top_eq_decide v).symm.trans h), ?_⟩
  rw [BitVec.toInt_eq_msb_cond, BitVec.msb_eq_getLsbD_last, if_pos h]
  rfl

theorem toInt_of_not_top {v : Byte} (h : v.getLsbD 7 = false) : v.toNat < 128 ∧ v.toInt = v.toNat := by
  refine ⟨Nat.lt_of_not_le (of_decide_eq_false ((top_eq_decide v).symm.trans h)), ?_⟩
  rw [BitVec.toInt_eq_msb_cond, BitVec.msb_eq_getLsbD_last, if_neg (ne_true_of_eq_false h)]

section
variable (signed : Bool) (x y : Byte)

theorem cmpEqual_iff : cmpEqual signed x y = true ↔ x = y := by
  cases signed with
  | true => simp [cmpEqual, cmpNumber, BitVec.toInt_inj]
  | false => simp [cmpEqual, cmpNumber, BitVec.toNat_inj]

/-- Exactly one of the three relations holds. -/
theorem cmp_trichotomy :
    (cmpEqual signed x y).toNat + (cmpGreater signed x y).toNat + (cmpSmaller signed x y).toNat = 1 := by
  rcases lt_trichotomy (cmpNumber signed x) (cmpNumber signed y) with h | h | h
  · simp [cmpEqual, cmpGreater, cmpSmaller, h, h.ne, h.le]
  · simp [cmpEqual, cmpGreater, cmpSmaller, h]
  · simp [cmpEqual, cmpGreater, cmpSmaller, h, h.ne', h.le]

variable {x y}

/-- Operands of the same sign compare alike signed and unsigned. -/
theorem cmp_of_same_top (h : x.getLsbD 7 = y.getLsbD 7) :
    cmpGreater signed x y = decide (y.toNat < x.toNat) ∧ cmpSmaller signed x y = decide (x.toNat < y.toNat) := by
  cases signed with
  | false => simp [cmpGreater, cmpSmaller, cmpNumber]
  | true =>
    cases hy : y.getLsbD 7 with
    | true => simp [cmpGreater, cmpSmaller, cmpNumber, toInt_of_top (h.trans hy), toInt_of_top hy]
    | false => simp [cmpGreater, cmpSmaller, cmpNumber, toInt_of_not_top (h.trans hy), toInt_of_not_top hy]

/-- An operand with the top bit set is the smaller one signed and the greater one unsigned. -/
theorem cmp_of_top_bit (hx : x.getLsbD 7 = true) (hy : y.getLsbD 7 = false) :
    (cmpGreater signed x y = !signed ∧ cmpSmaller signed x y = signed) ∧
    (cmpGreater signed y x = signed ∧ cmpSmaller signed y x = !signed) := by
  obtain ⟨hxn, hxi⟩ := toInt_of_top hx
  obtain ⟨hyn, hyi⟩ := toInt_of_not_top hy
  have := x.isLt
  cases signed with
  | false => simp [cmpGreater, cmpSmaller, cmpNumber]; omega
  | true => simp [cmpGreater, cmpSmaller, cmpNumber]; omega

end

theorem compares_of_aluCompare {i : Instr} {s : State} {rd : Reg} {b : Operand2} (hpc : s.pc ≠ 0xFF#8)
    (hi : exec i s = aluCompare rd b s) : Spec.Compares i s (s.reg rd) (operandValue s b) := by
  refine ⟨cmpEqual s.cfg.cmpSigned (s.reg rd) (operandValue s b),
    cmpGreater s.cfg.cmpSigned (s.reg rd) (operandValue s b),
    cmpSmaller s.cfg.cmpSigned (s.reg rd) (operandValue s b), hi.trans (advance_of_ne hpc), fun hu => ?_, fun hs => ?_,
    cmp_trichotomy _ _ _, cmpEqual_iff _ _ _, cmp_of_same_top _, fun hx hy => (cmp_of_top_bit _ hx hy).1,
    fun hx hy => (cmp_of_top_bit _ hy hx).2⟩
  · simp [hu, cmpEqual, cmpGreater, cmpSmaller, cmpNumber]
  · simp [hs, cmpEqual, cmpGreater, cmpSmaller, cmpNumber]

/-! ## One operand (42_alu_single.md R110 to R114) -/

theorem entering_eq_shiftIn (s : State) (leaving : Bool) :
    Spec.entering s leaving = shiftIn s.cfg.shiftFill s.flags.cf leaving := by
  unfold Spec.entering shiftIn
  cases s.cfg.shiftFill <;> rfl

/-- A logic instruction whose operation is `op` on each bit (43_alu_two.md R134). -/
theorem bitwise_of_aluLogic {i : Instr} {s : State} {rd : Reg} {b : Operand2} {f : Byte → Byte → Byte}
    {op : Bool → Bool → Bool} (hpc : s.pc ≠ 0xFF#8)
    (hf : ∀ x y k, (f x y).getLsbD k = op (x.getLsbD k) (y.getLsbD k)) (hi : exec i s = aluLogic f rd b s) :
    ∃ v, Spec.Bitwise op (s.reg rd) (operandValue s b) v ∧
      Spec.Writes i s rd v { s.flags with zf := decide (v = 0x00#8) } :=
  ⟨f (s.reg rd) (operandValue s b), fun k _ => hf _ _ k, hi.trans (advance_of_ne hpc)⟩

/-! ## Equivalent instructions (95_test_vectors.md V-Q2, V-Q8) -/

/-- A shift to the left that brings in 0 doubles. -/
theorem leftResult_false (v : Byte) : leftResult false v = addResult v v := by
  rw [addResult_eq, ← BitVec.mul_two, show v * 2#8 = v <<< 1 from (BitVec.shiftLeft_eq_mul_twoPow v 1).symm]
  refine BitVec.eq_of_getLsbD_eq fun i hi => ?_
  rw [getLsbD_leftResult, BitVec.getLsbD_shiftLeft]
  by_cases h0 : i = 0 <;> simp [h0, hi]

/-- The bit that leaves to the left is the carry of the doubling. -/
theorem leftLeaving_eq_addCarry (v : Byte) : leftLeaving v = addCarry v v := by
  rw [leftLeaving, top_eq_decide, addCarry, addSum]
  exact decide_eq_decide.mpr (by omega)

theorem execNot_eq_execXorl (r : Reg) (s : State) : execNot r s = execXorl r 0xFF#8 s := by
  have hv : ~~~(s.reg r) = s.reg r ^^^ 0xFF#8 := BitVec.xor_allOnes.symm
  rw [execNot, hv]
  rfl

theorem execRl_eq_execAddr {r : Reg} {s : State} (hfill : s.cfg.shiftFill = .zero) :
    execRl r s = execAddr r r s := by
  simp only [execRl, hfill, shiftIn, leftResult_false, leftLeaving_eq_addCarry]
  rfl

/-! ## Sequences of one-operand instructions (95_test_vectors.md V-Q1, V-Q7, V-Q9) -/

/-- What NOT, SWAP, RR and RL make of their register and CF. -/
def singleEffect (fill : ShiftFill) : Instr → Byte × Bool → Byte × Bool
  | .not _, (v, c) => (~~~v, c)
  | .swap _, (v, c) => (swapResult v, c)
  | .rr _, (v, c) => (rightResult (shiftIn fill c (rightLeaving v)) v, rightLeaving v)
  | .rl _, (v, c) => (leftResult (shiftIn fill c (leftLeaving v)) v, leftLeaving v)
  | _, p => p

/-- The one-operand instructions of the register `r`. -/
def singles (r : Reg) : List Instr := [.not r, .swap r, .rr r, .rl r]

/-- From `s` to `t`, `k` addresses on, the register `r` and CF became `p`, and no other register changed. -/
structure BecameAt (r : Reg) (s : State) (k : Nat) (p : Byte × Bool) (t : State) : Prop where
  pc : t.pc = s.pc + BitVec.ofNat 8 k
  cfg : t.cfg = s.cfg
  regs : t.regs = s.regs.set r p.1
  cf : t.flags.cf = p.2

theorem exec_single {i : Instr} {r : Reg} {s : State} (hi : i ∈ singles r) (hpc : s.pc ≠ 0xFF#8) :
    ∃ t, exec i s = .next t ∧
      BecameAt r s 1 (singleEffect s.cfg.shiftFill i (s.reg r, s.flags.cf)) t := by
  simp only [singles, List.mem_cons, List.not_mem_nil, or_false] at hi
  rcases hi with rfl | rfl | rfl | rfl
  all_goals exact ⟨_, advance_of_ne hpc, rfl, rfl, rfl, rfl⟩

theorem execAll_cons_of_next {i : Instr} {s t : State} (rest : List Instr) (h : exec i s = .next t) :
    Spec.execAll (i :: rest) s = Spec.execAll rest t := by
  simp [Spec.execAll, h]

/-- A sequence of one-operand instructions on one register does its effects one after the other. -/
theorem execAll_singles {r : Reg} (l : List Instr) {s : State} (hl : ∀ i ∈ l, i ∈ singles r)
    (hpc : s.pc.toNat + l.length ≤ 255) :
    ∃ t, Spec.execAll l s = .next t ∧
      BecameAt r s l.length (l.foldl (fun p i => singleEffect s.cfg.shiftFill i p) (s.reg r, s.flags.cf)) t := by
  induction l generalizing s with
  | nil => exact ⟨s, rfl, by simp, rfl, by simp [State.reg], rfl⟩
  | cons i rest ih =>
    rw [List.length_cons] at hpc
    obtain ⟨u, hu, hupc, hucfg, huregs, hucf⟩ := exec_single (hl i List.mem_cons_self) (s := s) (by bv_omega)
    have hureg : u.reg r = (singleEffect s.cfg.shiftFill i (s.reg r, s.flags.cf)).1 := by simp [State.reg, huregs]
    obtain ⟨t, ht, htpc, htcfg, htregs, htcf⟩ :=
      ih (s := u) (fun j hj => hl j (List.mem_cons_of_mem i hj)) (by rw [hupc]; bv_omega)
    rw [hucfg, hureg, hucf] at htregs htcf
    refine ⟨t, (execAll_cons_of_next rest hu).trans ht, ?_, htcfg.trans hucfg, ?_, htcf⟩
    · rw [htpc, hupc, List.length_cons]
      bv_omega
    · rw [htregs, huregs]
      simp

/-- A sequence whose effects give the register back restores every register. -/
theorem execAll_singles_restores {r : Reg} {s : State} (l : List Instr) (hl : ∀ i ∈ l, i ∈ singles r)
    (hpc : s.pc.toNat + l.length ≤ 255) {p : Byte × Bool}
    (hp : l.foldl (fun p i => singleEffect s.cfg.shiftFill i p) (s.reg r, s.flags.cf) = p) (hback : p.1 = s.reg r) :
    ∃ t, Spec.execAll l s = .next t ∧ t.regs = s.regs ∧ t.flags.cf = p.2 := by
  obtain ⟨t, ht, -, -, hregs, hcf⟩ := execAll_singles l hl hpc
  rw [hp] at hregs hcf
  rw [hback] at hregs
  exact ⟨t, ht, by simpa [State.reg] using hregs, hcf⟩

theorem swapResult_swapResult (v : Byte) : swapResult (swapResult v) = v := by
  refine BitVec.eq_of_getLsbD_eq fun i hi => ?_
  rw [getLsbD_swapResult, getLsbD_swapResult, getLsbD_swapResult]
  by_cases h4 : i < 4
  · have hhigh : i + 4 < 8 := by omega
    simp [h4, hhigh]
  · have hlow : i - 4 < 4 := by omega
    simp [h4, hi, hlow, Nat.sub_add_cancel (Nat.le_of_not_lt h4)]

theorem rightLeaving_leftResult (v : Byte) (b : Bool) : rightLeaving (leftResult b v) = b := by
  rw [rightLeaving, getLsbD_leftResult, if_pos rfl]

/-- A rotation to the right undoes one to the left. -/
theorem rightResult_leftResult (v : Byte) (b : Bool) : rightResult (leftLeaving v) (leftResult b v) = v := by
  refine BitVec.eq_of_getLsbD_eq fun i hi => ?_
  rw [getLsbD_rightResult, getLsbD_leftResult]
  by_cases h7 : i < 7
  · have hup : i + 1 < 8 := by omega
    simp [h7, hup]
  · obtain rfl : i = 7 := by omega
    simp [leftLeaving]

/-- A change that turns a ring of `m` bits by one place turns it by `n` places in `n` rounds. -/
theorem bit_iterate {α : Type} {bit : α → Nat → Bool} {f : α → α} {m : Nat}
    (hf : ∀ p i, i < m → bit (f p) i = bit p ((i + (m - 1)) % m)) (n : Nat) (p : α) {i : Nat} (hi : i < m) :
    bit (f^[n] p) i = bit p ((i + n * (m - 1)) % m) := by
  induction n generalizing i with
  | zero => simp [Nat.mod_eq_of_lt hi]
  | succ n ih =>
    rw [Function.iterate_succ_apply', hf _ _ hi, ih (Nat.mod_lt _ (by omega)), Nat.mod_add_mod, Nat.succ_mul,
      Nat.add_assoc, Nat.add_comm (m - 1)]

/-- After as many rounds as it has bits, the ring is back. -/
theorem bit_iterate_full {α : Type} {bit : α → Nat → Bool} {f : α → α} {m : Nat}
    (hf : ∀ p i, i < m → bit (f p) i = bit p ((i + (m - 1)) % m)) (p : α) {i : Nat} (hi : i < m) :
    bit (f^[m] p) i = bit p i := by
  rw [bit_iterate hf m p hi, Nat.add_mul_mod_self_left, Nat.mod_eq_of_lt hi]

/-- Under Rotate, RL turns the ring of the register's bits. -/
theorem rl_rotate_turns (r : Reg) (p : Byte × Bool) (i : Nat) (hi : i < 8) :
    (singleEffect .rotate (.rl r) p).1.getLsbD i = p.1.getLsbD ((i + (8 - 1)) % 8) := by
  have h := getLsbD_leftResult (leftLeaving p.1) p.1 i
  refine h.trans ?_
  by_cases h0 : i = 0
  · subst h0
    rfl
  · have hmod : (i + (8 - 1)) % 8 = i - 1 := by omega
    rw [if_neg h0, decide_eq_true hi, Bool.true_and, hmod]

/-- The register's bits and, as the ninth, CF. -/
def carryRing (p : Byte × Bool) (i : Nat) : Bool := if i < 8 then p.1.getLsbD i else p.2

/-- Under Carry, RL turns the ring of the register's bits and CF. -/
theorem rl_carry_turns (r : Reg) (p : Byte × Bool) (i : Nat) (hi : i < 9) :
    carryRing (singleEffect .carry (.rl r) p) i = carryRing p ((i + (9 - 1)) % 9) := by
  have h := getLsbD_leftResult p.2 p.1 i
  by_cases h0 : i = 0
  · subst h0
    exact h
  · have hmod : (i + (9 - 1)) % 9 = i - 1 := by omega
    have hlow : i - 1 < 8 := by omega
    rw [hmod, carryRing, carryRing, if_pos hlow]
    by_cases h8 : i < 8
    · rw [if_pos h8]
      refine h.trans ?_
      rw [if_neg h0, decide_eq_true h8, Bool.true_and]
    · obtain rfl : i = 8 := by omega
      rfl

theorem foldl_replicate {α β : Type} (g : α → β → α) (n : Nat) (p : α) (b : β) :
    (List.replicate n b).foldl g p = (fun q => g q b)^[n] p := by
  induction n generalizing p with
  | zero => rfl
  | succ n ih => exact ih (g p b)

theorem rl_rotate_eight (r : Reg) (p : Byte × Bool) : ((singleEffect .rotate (.rl r))^[8] p).1 = p.1 :=
  BitVec.eq_of_getLsbD_eq fun _ hi =>
    bit_iterate_full (bit := fun q => q.1.getLsbD) (rl_rotate_turns r) p hi

theorem rl_carry_nine (r : Reg) (p : Byte × Bool) : (singleEffect .carry (.rl r))^[9] p = p := by
  have hring := fun i (hi : i < 9) => bit_iterate_full (rl_carry_turns r) p hi
  refine Prod.ext (BitVec.eq_of_getLsbD_eq fun i hi => ?_) (hring 8 (by decide))
  have h := hring i (by omega)
  rwa [carryRing, carryRing, if_pos hi, if_pos hi] at h

/-- Under Rotate, RR takes back what RL did. -/
theorem rr_rotate_rl (r : Reg) (p : Byte × Bool) :
    (singleEffect .rotate (.rr r) (singleEffect .rotate (.rl r) p)).1 = p.1 := by
  simp only [singleEffect, shiftIn, rightLeaving_leftResult, rightResult_leftResult]

end Sys2Proof.Machine

/-! CLAIMS. Results and equivalences of the ALU instructions (42_alu_single.md, 43_alu_two.md, 95_test_vectors.md). -/

namespace Sys2Proof.Machine

/-- Settles O26: the bits of the two shifted values. -/
theorem shiftResults : Obligations.ShiftResults := by
  intro r s hpc
  refine ⟨⟨rightValue r s, fun i hi => ?_, ?_, advance_of_ne hpc⟩,
    ⟨leftValue r s, fun i hlo hhi => ?_, ?_, advance_of_ne hpc⟩⟩
  · rw [rightValue, getLsbD_rightResult, if_pos hi]
  · rw [rightValue, getLsbD_rightResult, entering_eq_shiftIn]
    rfl
  · rw [leftValue, getLsbD_leftResult, if_neg (Nat.ne_of_gt hlo), decide_eq_true hhi, Bool.true_and]
  · rw [leftValue, getLsbD_leftResult, entering_eq_shiftIn]
    rfl

/-- Settles O25: the halves of an appended value are its parts. -/
theorem notAndSwapResults : Obligations.NotAndSwapResults := fun r s hpc =>
  ⟨⟨~~~(s.reg r), BitVec.toNat_not, advance_of_ne hpc⟩,
    ⟨swapResult (s.reg r), BitVec.extractLsb'_append_eq_left, BitVec.extractLsb'_append_eq_right,
      advance_of_ne hpc⟩⟩

/-- Settles O27: one law for the three operations on bits and both forms of the second operand. -/
theorem logicLaw : Obligations.LogicLaw := by
  intro rd rs l s hpc
  have hand : ∀ (x y : Byte) k, (x &&& y).getLsbD k = (x.getLsbD k && y.getLsbD k) := fun _ _ _ => BitVec.getLsbD_and
  have hor : ∀ (x y : Byte) k, (x ||| y).getLsbD k = (x.getLsbD k || y.getLsbD k) := fun _ _ _ => BitVec.getLsbD_or
  have hxor : ∀ (x y : Byte) k, (x ^^^ y).getLsbD k = (x.getLsbD k ^^ y.getLsbD k) := fun _ _ _ => BitVec.getLsbD_xor
  exact ⟨bitwise_of_aluLogic (b := .literal l) hpc hand rfl, bitwise_of_aluLogic (b := .register rs) hpc hand rfl,
    bitwise_of_aluLogic (b := .literal l) hpc hor rfl, bitwise_of_aluLogic (b := .register rs) hpc hor rfl,
    bitwise_of_aluLogic (b := .literal l) hpc hxor rfl, bitwise_of_aluLogic (b := .register rs) hpc hxor rfl⟩

/-- Settles O28: one law for ADDL, ADDR and INC, which assembles to ADDL. -/
theorem additionLaw : Obligations.AdditionLaw := fun rd rs l _ hpc =>
  ⟨adds_of_aluAdd (b := .literal l) hpc rfl, adds_of_aluAdd (b := .register rs) hpc rfl,
    .addl rd 0x01#8, asmR_of_lt rd.isLt _, adds_of_aluAdd (b := .literal 0x01#8) hpc rfl⟩

/-- Settles O29: one law for SUBL, SUBR and DEC, which assembles to SUBL. -/
theorem subtractionLaw : Obligations.SubtractionLaw := fun rd rs l _ hpc =>
  ⟨subtracts_of_aluSub (b := .literal l) hpc rfl, subtracts_of_aluSub (b := .register rs) hpc rfl,
    .subl rd 0x01#8, asmR_of_lt rd.isLt _, subtracts_of_aluSub (b := .literal 0x01#8) hpc rfl⟩

/-- Settles O30: one law for CMPL and CMPR. -/
theorem comparisonLaw : Obligations.ComparisonLaw := fun _ rs l _ hpc =>
  ⟨compares_of_aluCompare (b := .literal l) hpc rfl, compares_of_aluCompare (b := .register rs) hpc rfl⟩


/-- Settles O55: each operation on the register's value is its own inverse. -/
theorem notAndSwapAreInvolutions : Obligations.NotAndSwapAreInvolutions := by
  intro r s hpc
  constructor
  · obtain ⟨t, ht, hregs, -⟩ := execAll_singles_restores (r := r) [.not r, .not r] (by simp [singles]) hpc rfl
      BitVec.not_not
    exact ⟨t, ht, hregs⟩
  · obtain ⟨t, ht, hregs, -⟩ := execAll_singles_restores (r := r) [.swap r, .swap r] (by simp [singles]) hpc rfl
      (swapResult_swapResult (s.reg r))
    exact ⟨t, ht, hregs⟩

/-- Settles O56: equal values are written and equal flags, so the meanings are equal before the advance. -/
theorem equivalentInstructions : Obligations.EquivalentInstructions :=
  ⟨execNot_eq_execXorl, fun _ _ => execRl_eq_execAddr⟩

/-- Settles O57: RL turns a ring of 8 bits under Rotate and of 9 bits, CF among them, under Carry. -/
theorem rotationsComeRound : Obligations.RotationsComeRound := by
  refine ⟨fun r s hfill hpc => ?_, fun r s hfill hpc => ?_, fun r s hfill hpc => ?_⟩
  · obtain ⟨t, ht, hregs, -⟩ := execAll_singles_restores (r := r) [.rl r, .rr r] (by simp [singles]) hpc rfl
      (by rw [hfill]; exact rr_rotate_rl r (s.reg r, s.flags.cf))
    exact ⟨t, ht, hregs⟩
  · obtain ⟨t, ht, hregs, -⟩ := execAll_singles_restores (r := r) (List.replicate 8 (.rl r)) (by simp [singles])
      hpc (foldl_replicate _ _ _ _) (by rw [hfill]; exact rl_rotate_eight r (s.reg r, s.flags.cf))
    exact ⟨t, ht, hregs⟩
  · obtain ⟨t, ht, hregs, hcf⟩ := execAll_singles_restores (r := r) (List.replicate 9 (.rl r)) (by simp [singles])
      hpc (foldl_replicate _ _ _ _) (by rw [hfill, rl_carry_nine])
    rw [hfill, rl_carry_nine] at hcf
    exact ⟨t, ht, hregs, hcf⟩

end Sys2Proof.Machine

/-! SUPPORT. The words of CALL and LDR (30_encoding.md R52, R53), and what CALL, RETI, the conditional jumps, LDR, STR
and PUSH answer, case by case (40_jump.md R72, R73, R76 to R80; 41_register_memory.md R92 to R94). -/

namespace Sys2Proof

section
variable {w : InstrWord}

theorem decode_of_opcode_call (h : opcodeField w = 0b00011#5) : decode w = .ok (.call (immField w)) := by
  simp [decode, h]

theorem decode_of_opcode_ldr (h : opcodeField w = 0b01100#5) :
    decode w = .ok (.ldr (regField w) (immField w)) := by
  simp [decode, h]

end

end Sys2Proof

namespace Sys2Proof.Machine

section
variable {s : State} {a : Addr} {r : Reg}

theorem advance_of_top (h : s.pc = 0xFF#8) : advance s = .fault (.pcOverrun s.pc) := by
  rw [advance_of_eq h, h]

theorem exec_call_of_top (hpc : s.pc = 0xFF#8) : exec (.call a) s = .fault (.pcOverrun s.pc) := if_pos hpc

theorem exec_call_of_ne (hpc : s.pc ≠ 0xFF#8) :
    exec (.call a) s = andThen (pushEntry (.call (s.pc + 1#8)) s) (jumpTo a) := if_neg hpc

theorem exec_call_of_room (hpc : s.pc ≠ 0xFF#8) (hroom : s.stack.length ≠ s.cfg.stackDepth) :
    exec (.call a) s = .next { s with stack := .call (s.pc + 1#8) :: s.stack, pc := a } := by
  rw [exec_call_of_ne hpc, pushEntry_of_room hroom, andThen_ok, jumpTo]

theorem exec_call_of_full (hpc : s.pc ≠ 0xFF#8) (hfull : s.stack.length = s.cfg.stackDepth) :
    exec (.call a) s = .fault (.stackOverflow s.pc) := by
  rw [exec_call_of_ne hpc, pushEntry_of_full hfull, andThen_error]

theorem exec_retc_of_call {rest : List Entry} (hs : s.stack = .call a :: rest) :
    exec .retc s = .next { s with stack := rest, pc := a } :=
  exec_retc_of_popped (popEntry_of_match hs rfl)

theorem exec_reti (s : State) : exec .reti s = andThen (popIrq s) fun p => .next { p.2 with
    flags := restoredFlags p.2.cfg.irqSavesFlags p.1.2 p.2.flags, inService := false, pc := p.1.1 } := rfl

theorem exec_reti_of_irq {f : Option Flags} {rest : List Entry} (hs : s.stack = .irq a f :: rest) :
    exec .reti s = .next { s with
      stack := rest, flags := restoredFlags s.cfg.irqSavesFlags f s.flags, inService := false, pc := a } := by
  have hpop : popIrq s = .ok ((a, f), { s with stack := rest }) := popEntry_of_match hs rfl
  rw [exec_reti, hpop, andThen_ok]

/-- RETI makes no check of its own: it has the faults of its pop (40_jump.md R72). -/
theorem exec_reti_of_not_popped {e : Fault} (h : popIrq s = .error e) : exec .reti s = .fault e := by
  rw [exec_reti, h, andThen_error]

/-- A conditional jump is the test of its flag (40_jump.md R71). -/
theorem jumpsIf_of_branchOn {i : Instr} {n : FlagName} (hi : exec i s = branchOn n a s) :
    Spec.JumpsIf i (s.flags.get n) a s := by
  refine ⟨fun hn => hi.trans (branchOn_of_set hn), fun hn hpc => ?_, fun hn hpc => ?_⟩
  · rw [hi, branchOn_of_clear hn, advance_of_ne hpc]
  · rw [hi, branchOn_of_clear hn, advance_of_eq hpc, hpc]

theorem exec_ldr (rd : Reg) (a : Addr) (s : State) :
    exec (.ldr rd a) s = andThen (memRead a s) fun p => advance (p.2.setReg rd p.1) := rfl

theorem exec_ldr_of_read {v : Byte} {t : State} (h : memRead a s = .ok (v, t)) :
    exec (.ldr r a) s = advance (t.setReg r v) := by
  rw [exec_ldr, h, andThen_ok]

theorem exec_ldr_of_not_read {e : Fault} (h : memRead a s = .error e) : exec (.ldr r a) s = .fault e := by
  rw [exec_ldr, h, andThen_error]

theorem exec_str (a : Addr) (rs : Reg) (s : State) :
    exec (.str a rs) s = andThen (memWrite a (s.reg rs) s) advance := rfl

theorem exec_str_of_written {t : State} (h : memWrite a (s.reg r) s = .ok t) : exec (.str a r) s = advance t := by
  rw [exec_str, h, andThen_ok]

theorem exec_str_of_absent (hk : s.kindAt a = .absent) : exec (.str a r) s = .fault (.unmappedData s.pc a) := by
  rw [exec_str, memWrite_of_absent _ hk, andThen_error]

/-- At the top address a STR that completes its write falls off the end (10_state.md R15). -/
theorem exec_str_of_top (hk : s.kindAt a ≠ .absent) (hpc : s.pc = 0xFF#8) :
    exec (.str a r) s = .fault (.pcOverrun s.pc) := by
  rw [hpc]
  cases hkind : s.kindAt a with
  | ram => exact andThen_advance_of_eq (memWrite_of_ram _ hkind) hpc
  | device => exact andThen_advance_of_eq (memWrite_of_device _ hkind) hpc
  | absent => exact absurd hkind hk

theorem exec_push (rs : Reg) (s : State) :
    exec (.push rs) s = andThen (pushEntry (.data (s.reg rs)) s) advance := rfl

theorem exec_push_of_room (hroom : s.stack.length ≠ s.cfg.stackDepth) :
    exec (.push r) s = advance { s with stack := .data (s.reg r) :: s.stack } := by
  rw [exec_push, pushEntry_of_room hroom, andThen_ok]

theorem exec_push_of_full (hfull : s.stack.length = s.cfg.stackDepth) :
    exec (.push r) s = .fault (.stackOverflow s.pc) := by
  rw [exec_push, pushEntry_of_full hfull, andThen_error]

end

/-! ## Fetch, loading and saved flags -/

theorem step_of_no_word {s : State} (ha : ¬ Spec.Accepted s) (hw : s.program.word s.pc = none) :
    step s = .fault (.noInstruction s.pc) := by
  have hf : fetch s.passBoundary = .error (.noInstruction s.pc) := by simp [fetch, hw]
  rw [step, acceptsInterrupt_of_not_accepted ha, hf]
  rfl

theorem decode_of_decodeTableWord {nbits w : Nat} {i : Instr} (h : decodeTableWord nbits w = some i) :
    decode (tableWord nbits w) = .ok i := by
  unfold decodeTableWord at h
  cases hd : decode (tableWord nbits w) with
  | ok j =>
    rw [hd] at h
    exact congrArg Except.ok (Option.some.inj h)
  | error e =>
    rw [hd] at h
    cases h

/-- The flags RETI leaves after entry saved them, or did not, as configured (60_exceptions.md R167, R168). -/
theorem restoredFlags_saved (saves : Bool) (saved present : Flags) :
    restoredFlags saves (if saves then some saved else none) present = if saves then saved else present := by
  cases saves <;> rfl

end Sys2Proof.Machine

/-! CLAIMS. The jump family, the register and memory family, steps, interrupts and reset (40_jump.md,
41_register_memory.md, 60_exceptions.md R162 to R168, 70_reset_and_hazards.md). -/

namespace Sys2Proof.Machine

/-- Settles O15: the check of `pc`, then the push, then the jump. -/
theorem callPushesReturnAddress : Obligations.CallPushesReturnAddress :=
  ⟨fun _ => rfl, fun _ => decode_of_opcode_call,
    fun _ _ => ⟨exec_call_of_room, exec_call_of_top, exec_call_of_full⟩⟩

/-- Settles O17: one case of the pop for each kind of top entry and one for the empty stack. -/
theorem retiReturnsFromInterrupt : Obligations.RetiReturnsFromInterrupt := by
  refine ⟨fun s a f rest hs => ⟨fun hsaves => ?_, fun g hsaves hf => ?_⟩, fun s hs => ?_, fun s v rest hs => ?_,
    fun s a rest hs => ?_⟩
  · rw [exec_reti_of_irq hs, hsaves]
    rfl
  · rw [exec_reti_of_irq hs, hsaves, hf]
    rfl
  · exact exec_reti_of_not_popped (popEntry_of_empty hs)
  · exact exec_reti_of_not_popped (popEntry_of_mismatch hs rfl)
  · exact exec_reti_of_not_popped (popEntry_of_mismatch hs rfl)

/-- Settles O18: the five jumps differ in the flag they test. -/
theorem conditionalJumps : Obligations.ConditionalJumps := fun _ _ =>
  ⟨jumpsIf_of_branchOn (n := .zf) rfl, jumpsIf_of_branchOn (n := .cf) rfl, jumpsIf_of_branchOn (n := .ef) rfl,
    jumpsIf_of_branchOn (n := .gf) rfl, jumpsIf_of_branchOn (n := .sf) rfl⟩

/-- Settles O20: one register write and the advance. -/
theorem movrCopiesRegister : Obligations.MovrCopiesRegister := fun _ _ _ =>
  ⟨advance_setReg_of_ne, advance_setReg_of_eq⟩

/-- Settles O21: one case of the read for each kind of cell. -/
theorem ldrReadsCell : Obligations.LdrReadsCell := by
  refine ⟨fun rd a => ?_, fun w hop => ⟨regField w, decode_of_opcode_ldr hop, rfl⟩,
    fun rd a s => ⟨fun v hk hv hpc => ?_, fun hk hpc => ?_, fun hk => ?_, fun hk hv => ?_, fun v hk hv hpc => ?_,
      fun hk hpc => ?_⟩⟩
  · rw [← widen_regBits]
    rfl
  · exact (exec_ldr_of_read (memRead_of_ram hk hv)).trans (advance_setReg_of_ne hpc)
  · exact (exec_ldr_of_read (memRead_of_device hk)).trans (advance_setReg_of_ne hpc)
  · exact exec_ldr_of_not_read (memRead_of_absent hk)
  · exact exec_ldr_of_not_read (memRead_of_unwritten hk hv)
  · exact (exec_ldr_of_read (memRead_of_ram hk hv)).trans (advance_setReg_of_eq hpc)
  · exact (exec_ldr_of_read (memRead_of_device hk)).trans (advance_setReg_of_eq hpc)

/-- Settles O22: one case of the write for each kind of cell. -/
theorem strWritesCell : Obligations.StrWritesCell := by
  refine fun a rs s => ⟨fun hk hpc => ?_, fun hk hpc => ?_, exec_str_of_absent, exec_str_of_top⟩
  · exact ⟨s.data.write a (s.reg rs), (exec_str_of_written (memWrite_of_ram _ hk)).trans (advance_of_ne hpc),
      Memory.read_write_self _ _ _, fun b => Memory.read_write_of_ne _ _⟩
  · exact (exec_str_of_written (memWrite_of_device _ hk)).trans (advance_of_ne hpc)

/-- Settles O23: the push, then the advance. -/
theorem pushStacksRegister : Obligations.PushStacksRegister := by
  refine fun rs s => ⟨fun hroom hpc => ?_, exec_push_of_full, fun hroom hpc => ?_⟩
  · exact (exec_push_of_room hroom).trans (advance_of_ne hpc)
  · exact (exec_push_of_room hroom).trans (advance_of_top hpc)

/-- Settles O54: each fault is the one its check raises, and CALL checks `pc` before it pushes. -/
theorem faultOrder : Obligations.FaultOrder := by
  refine ⟨fun s => step_of_no_word, fun a rd s _ => ⟨fun hk => ?_, fun hk hv => ?_⟩,
    fun rd s _ => ⟨fun hs => ?_, fun a rest hs => ?_, exec_push_of_full⟩, fun a s hpc _ => exec_call_of_top hpc⟩
  · exact ⟨exec_ldr_of_not_read (memRead_of_absent hk), exec_str_of_absent hk⟩
  · exact exec_ldr_of_not_read (memRead_of_unwritten hk hv)
  · exact exec_pop_of_not_popped (popEntry_of_empty hs)
  · exact exec_pop_of_not_popped (popEntry_of_mismatch hs rfl)

/-- Settles O9: the step past its boundary. -/
theorem stepRunsDecodedInstruction : Obligations.StepRunsDecodedInstruction := fun _ _ _ => step_eq_exec

/-- Settles O10: the loaded word stands at `pc`, and the request at that boundary is withdrawn. -/
theorem loadedWordRunsNext : Obligations.LoadedWordRunsNext := by
  intro s nbits w i h
  have hnot : ¬ Spec.Accepted (s.withFetchWord nbits w) := fun ⟨_, hreq, _⟩ => by
    simp [State.requestAt_withFetchWord] at hreq
  exact step_eq_exec hnot (Program.word_load_self _ _ _) (decode_of_decodeTableWord h)

/-- Settles O11: an accepted interrupt is the entry past the boundary, which is one push. -/
theorem interruptEntry : Obligations.InterruptEntry := by
  refine fun s ha => ⟨fun hroom => ?_, fun hfull => ?_⟩
  · exact (step_of_accepted ha).trans (enterInterrupt_of_room (s := Spec.pastBoundary s) hroom)
  · rw [step_of_accepted ha, enterInterrupt, pushEntry_of_full (s := Spec.pastBoundary s) hfull, andThen_error]
    rfl

/-- Settles O50: the entry that CALL pushed is the one RETC pops. -/
theorem balancedSubroutineReturns : Obligations.BalancedSubroutineReturns := by
  intro a s t u hcall hstack
  obtain ⟨-, -, rfl⟩ := next_of_execCall hcall
  exact exec_retc_of_call hstack

/-- Settles O51: the entry that PUSH pushed is the one POP pops, and two advances are two addresses. -/
theorem pushThenPopCopies : Obligations.PushThenPopCopies := by
  intro ra rb s hpc hroom
  have hne : s.pc ≠ 0xFF#8 := by bv_omega
  have hpush : exec (.push ra) s = .next { s with stack := .data (s.reg ra) :: s.stack, pc := s.pc + 1#8 } :=
    (exec_push_of_room hroom).trans (advance_of_ne hne)
  have hpop := (exec_pop_of_data (rd := rb) (s := { s with stack := .data (s.reg ra) :: s.stack, pc := s.pc + 1#8 })
    rfl).trans (advance_setReg_of_ne (by bv_omega))
  have htwo : s.pc + 1#8 + 1#8 = s.pc + 2#8 := by bv_omega
  rw [execAll_cons_of_next _ hpush, execAll_cons_of_next _ hpop, htwo]
  rfl

/-- Settles O49: the frame that entry pushed is the one RETI pops. -/
theorem interruptReturnsToInterruptedProgram : Obligations.InterruptReturnsToInterruptedProgram := by
  intro s ha hroom
  refine ⟨_, (interruptEntry s ha).1 hroom, fun u hstack hcfg => ?_⟩
  rw [exec_reti_of_irq hstack, hcfg, restoredFlags_saved]

/-- Settles O46: no frame is on the stack, so the pop of one finds none. -/
theorem retiFaultsWithoutInterrupts : Obligations.RetiFaultsWithoutInterrupts := by
  intro s hs hpresent
  have hnone := hs.one_frame
  rw [hs.no_irq hpresent] at hnone
  cases hstack : s.stack with
  | nil => exact .inl (exec_reti_of_not_popped (popEntry_of_empty hstack))
  | cons e rest =>
    cases e with
    | data v => exact .inr ⟨.data, exec_reti_of_not_popped (popEntry_of_mismatch hstack rfl)⟩
    | call a => exact .inr ⟨.call, exec_reti_of_not_popped (popEntry_of_mismatch hstack rfl)⟩
    | irq a f => simp [hstack] at hnone

/-- Settles O58: `resetEvent` and `State.launch` set these fields outright. -/
theorem resetAndLaunch : Obligations.ResetAndLaunch :=
  ⟨fun _ _ => ⟨rfl, rfl, rfl, rfl, rfl, Memory.read_empty⟩, fun _ _ _ _ => ⟨rfl, rfl, rfl, rfl, rfl, rfl⟩,
    rfl, rfl, rfl, rfl, Memory.read_empty⟩

/-- Settles O59: `Unspecified.zero` fills registers and flags. -/
theorem modelChoosesZeroAtReset : Obligations.ModelChoosesZeroAtReset := by
  refine ⟨fun r => ?_, fun n => ?_⟩
  · exact Vector.getElem_replicate r.isLt
  · cases n <;> rfl

end Sys2Proof.Machine

/-! SUPPORT. Runs: one that has ended, one without a store to a cell, one under endless requests (20_memory.md R38,
40_jump.md R82, 60_exceptions.md R168). -/

namespace Sys2Proof.Machine

/-! ## The end of a run (40_jump.md R82) -/

theorem not_accepted_of_noInterruptToCome {s : State} (h : Safety.noInterruptToCome s) : ¬ Spec.Accepted s := by
  rintro ⟨hpresent, hreq, hfree⟩
  rcases h with h | h | h
  · simp [h] at hpresent
  · simp [h] at hfree
  · simp [h 0] at hreq

theorem decode_of_atSelfJump {s : State} (h : Safety.atSelfJump s = true) :
    ∃ w, s.program.word s.pc = some w ∧ decode w = .ok (.jmp s.pc) := by
  unfold Safety.atSelfJump at h
  cases hw : s.program.word s.pc with
  | none => simp [hw] at h
  | some w =>
    rw [hw] at h
    cases hd : decode w with
    | ok i => exact ⟨w, rfl, by simpa [hd, Except.toOption] using h⟩
    | error e => simp [hd, Except.toOption] at h

/-- From the end of a run a step passes its boundary, and the run is still ended. -/
theorem step_of_runEnded {s : State} (h : Safety.runEnded s) :
    step s = .next (Spec.pastBoundary s) ∧ Safety.runEnded (Spec.pastBoundary s) := by
  obtain ⟨hjump, hcome⟩ := h
  obtain ⟨w, hw, hd⟩ := decode_of_atSelfJump hjump
  refine ⟨step_eq_exec (not_accepted_of_noInterruptToCome hcome) hw hd, hjump, ?_⟩
  rcases hcome with hcome | hcome | hcome
  · exact .inl hcome
  · exact .inr (.inl hcome)
  · exact .inr (.inr fun k => (State.requestAt_passBoundary s k).trans (hcome (k + 1)))

/-! ## A store and a later load (20_memory.md R38) -/

/-- A step that executes no STR to `a` leaves the cell at `a`. -/
theorem read_of_step {s t : State} {a : Addr} (h : step s = .next t)
    (hno : ¬ Spec.Accepted s → ∀ w i, s.program.word s.pc = some w → decode w = .ok i →
      Spec.storeAddress i ≠ some a) :
    t.data.read a = s.data.read a := by
  rcases cases_of_step h with ⟨-, hentry⟩ | ⟨hnot, w, i, hw, hi, hexec⟩
  · obtain ⟨-, rfl⟩ := next_of_enterInterrupt hentry
    rfl
  · exact read_of_exec (s := Spec.pastBoundary s) hexec (hno hnot w i hw hi)

/-- So does a run that executes none. -/
theorem read_of_run {a : Addr} {k : Nat} {s t : State} (hno : Spec.noStoreTo a k s)
    (h : Host.Core.run core k s = .next t) : t.data.read a = s.data.read a ∧ t.cfg = s.cfg := by
  induction k generalizing s with
  | zero =>
    cases h
    exact ⟨rfl, rfl⟩
  | succ k ih =>
    obtain ⟨u, hstep, hrun⟩ := next_of_run_succ h
    obtain ⟨hfirst, hlater⟩ := hno
    obtain ⟨hread, hcfg⟩ := ih (hlater u hstep) hrun
    exact ⟨hread.trans (read_of_step hstep hfirst), hcfg.trans (program_cfg_of_step hstep).2⟩

/-! ## Starvation (60_exceptions.md R168) -/

/-- The stack of a handler: the frame of the interrupted program at `a` over its stack `base`, and no other frame
above it. -/
def HandlerStack (a : Addr) (base stack : List Entry) : Prop :=
  ∃ above f, stack = above ++ .irq a f :: base ∧ ∀ e ∈ above, e.kind ≠ .irq

/-- The program at `a` with the stack `base` waits: either nothing of it has run since, or an interrupt is in service
whose frame leads back to it. -/
def Waits (a : Addr) (base : List Entry) (s : State) : Prop :=
  (s.inService = false ∧ s.pc = a ∧ s.stack = base) ∨ (s.inService = true ∧ HandlerStack a base s.stack)

/-- No instruction of a handler frees the program from waiting: RETI finds its frame first. -/
theorem waits_of_exec {a : Addr} {base : List Entry} {i : Instr} {s t : State} (hs : s.inService = true)
    (hstack : HandlerStack a base s.stack) (h : exec i s = .next t) : Waits a base t := by
  obtain ⟨above, f, hstack, habove⟩ := hstack
  cases stackChange_of_exec h with
  | kept hkept hbit => exact .inr ⟨hbit.trans hs, above, f, hkept.trans hstack, habove⟩
  | pushed e hkind _ hpushed hbit =>
    refine .inr ⟨hbit.trans hs, e :: above, f, by rw [hpushed, hstack, List.cons_append], ?_⟩
    exact List.forall_mem_cons.mpr ⟨hkind, habove⟩
  | popped e hkind hpopped hbit =>
    rw [hpopped] at hstack
    cases above with
    | nil => exact absurd (congrArg Entry.kind (List.cons.inj hstack).1) hkind
    | cons e' above =>
      exact .inr ⟨hbit.trans hs, above, f, (List.cons.inj hstack).2, (List.forall_mem_cons.mp habove).2⟩
  | returned g hreturned hbit =>
    rw [hreturned] at hstack
    cases above with
    | nil =>
      obtain ⟨hframe, hbase⟩ := List.cons.inj hstack
      exact .inl ⟨hbit, (Entry.irq.inj hframe).1, hbase⟩
    | cons e' above =>
      obtain ⟨hhead, -⟩ := List.cons.inj hstack
      exact absurd (congrArg Entry.kind hhead.symm) (habove e' List.mem_cons_self)

/-- Interrupts exist and the environment requests at every boundary. -/
def RequestsForever (s : State) : Prop := s.cfg.irqPresent = true ∧ ∀ j, s.requestAt j = true

theorem requestsForever_of_step {s t : State} (hs : RequestsForever s) (h : step s = .next t) :
    RequestsForever t := by
  obtain ⟨hpresent, hreq⟩ := hs
  refine ⟨(congrArg Config.irqPresent (program_cfg_of_step h).2).trans hpresent, fun j => ?_⟩
  have hpast : t.requestAt j = (Spec.pastBoundary s).requestAt j := by
    rcases cases_of_step h with ⟨-, hentry⟩ | ⟨-, w, i, -, -, hexec⟩
    · obtain ⟨-, rfl⟩ := next_of_enterInterrupt hentry
      rfl
    · have hframe := frame_of_exec hexec
      exact State.requestAt_congr hframe.irqLine hframe.irqAfter hframe.boundary j
  rw [hpast]
  exact (State.requestAt_passBoundary s j).trans (hreq (j + 1))

theorem waits_of_step {a : Addr} {base : List Entry} {s t : State} (hs : RequestsForever s) (hw : Waits a base s)
    (h : step s = .next t) : Waits a base t := by
  obtain ⟨hpresent, hreq⟩ := hs
  rcases hw with ⟨hfree, hpc, hstack⟩ | ⟨hin, hstack⟩
  · rw [step_of_accepted ⟨hpresent, hreq 0, hfree⟩] at h
    obtain ⟨-, rfl⟩ := next_of_enterInterrupt h
    subst hpc hstack
    exact .inr ⟨rfl, [], _, rfl, nofun⟩
  · obtain ⟨w, i, -, -, hexec⟩ := exec_of_step (not_accepted_of_inService hin) h
    exact waits_of_exec (s := Spec.pastBoundary s) hin hstack hexec

theorem waits_of_run {a : Addr} {base : List Entry} {k : Nat} {s t : State} (hs : RequestsForever s)
    (hw : Waits a base s) (h : Host.Core.run core k s = .next t) : RequestsForever t ∧ Waits a base t := by
  induction k generalizing s with
  | zero =>
    cases h
    exact ⟨hs, hw⟩
  | succ k ih =>
    obtain ⟨u, hstep, hrun⟩ := next_of_run_succ h
    exact ih (requestsForever_of_step hs hstep) (waits_of_step hs hw hstep) hrun

end Sys2Proof.Machine

/-! CLAIMS. Runs of several steps. -/

namespace Sys2Proof.Machine

/-- Settles O52, by induction on the number of steps. -/
theorem endedRunStays : Obligations.EndedRunStays := by
  intro s k h
  induction k generalizing s with
  | zero => exact ⟨rfl, h⟩
  | succ k ih =>
    obtain ⟨hstep, hended⟩ := step_of_runEnded h
    have hline : s.irqLine.tail.drop k = s.irqLine.drop (k + 1) := List.drop_tail
    have hcount : s.boundary + 1 + k = s.boundary + (k + 1) := by omega
    rw [run_succ_of_next k hstep, ← hline, ← hcount]
    exact ih (Spec.pastBoundary s) hended

/-- Settles O48: the cell holds the stored value, the run leaves it, and the load reads it. -/
theorem loadReturnsMostRecentStore : Obligations.LoadReturnsMostRecentStore := by
  intro k a rs rd s t u hram hstr hno hrun hpc
  obtain ⟨hread, hcfg⟩ := read_of_run hno hrun
  have hkind : u.kindAt a = .ram := (State.kindAt_congr (hcfg.trans (frame_of_exec hstr).cfg) a).trans hram
  have hstored : t.data.read a = some (s.reg rs) := by
    rcases next_of_execStr hstr with ⟨-, rfl⟩ | ⟨hdevice, -⟩
    · exact Memory.read_write_self _ _ _
    · simp [hram] at hdevice
  exact (exec_ldr_of_read (memRead_of_ram hkind (hread.trans hstored))).trans (advance_setReg_of_ne hpc)

/-- Settles O60: under endless requests the program waits, at every step of the run, where the run found it. -/
theorem endlessRequestsStarveTheProgram : Obligations.EndlessRequestsStarveTheProgram := by
  refine ⟨fun s t h hpresent hreq => ?_, fun k s t hpresent hfree hreq hrun ht => ?_⟩
  · have hframe := frame_of_exec h
    exact ⟨hframe.cfg ▸ hpresent,
      (State.requestAt_congr hframe.irqLine hframe.irqAfter hframe.boundary 0).trans hreq, inService_of_reti h⟩
  · obtain ⟨⟨hpresent, hreq⟩, hw⟩ := waits_of_run ⟨hpresent, hreq⟩ (.inl ⟨hfree, rfl, rfl⟩) hrun
    rcases hw with ⟨-, hpc, hstack⟩ | ⟨hin, -⟩
    · exact ⟨hpc, hstack, hpresent, hreq 0, ht⟩
    · simp [ht] at hin

end Sys2Proof.Machine
